-- ==== Sys2Proof/Word.lean ====
section
/-! DEFINITION. The word types of the block: fixed-width bit vectors that wrap (00_scope.md R9, R10). -/

namespace Sys2Proof

/-- One byte of a stream, the command word or the byte operand. -/
abbrev Byte := BitVec 8

/-- A value of the 32-bit codec. -/
abbrev Word32 := BitVec 32

/-- A value of the 64-bit codec, the operand field `OPA` and the result field `RES`. -/
abbrev Word64 := BitVec 64

/-- The index operand `OPI`, the counter `IDX` and the transfer count `RCNT`. -/
abbrev Nibble := BitVec 4

/-- The payload of one byte: one 7-bit group of a value (30_encoding.md R47). -/
abbrev Segment := BitVec 7

end Sys2Proof
end

