-- ==== Sys2Proof/Machine/Flags.lean ====
section
/-! DEFINITION. The continuation flag. It is the block's only flag, called `MORE`, and is computed in the step that
handles one byte and never held (10_state.md R22). -/

namespace Sys2Proof.Machine

/-- `SEG_MASK`: the segment bits of any byte (00_scope.md R7). -/
def segMask : Byte := 0x7F

/-- `CONT_BIT`: the continuation bit of any byte (00_scope.md R7). -/
def contBit : Byte := 0x80

/-- The continuation bit of a byte: `MORE` while decoding (40_primitives.md R60, 10_state.md R22). -/
def cont (b : Byte) : Bool := b.getLsbD 7

/-- Whether any bit lies outside the low 7, compared logically: `MORE` while encoding (40_primitives.md R62,
10_state.md R22). -/
def more {n : Nat} (v : BitVec n) : Bool := (v &&& ~~~(segMask.setWidth n)) != 0

end Sys2Proof.Machine
end

