-- ==== Sys2Proof/Config.lean ====
section
/-! DEFINITION. What the spec leaves open as a parameter (00_scope.md R8).
`N_INST` is the length of a system's list of instances (Machine/System.lean). `PIN_MAP` is not modelled: no rule
depends on it. The widths, `N` and `MASK` are fixed by the source (R7) and stand in Machine/Operands.lean. -/

namespace Sys2Proof

/-- Which numbers, beside 0, name a failure token of the host. An uninterpreted parameter with no body: no proof can see
which they are, so a claim holds for every type of tokens that numbers can name (20_memory.md R36, 00_scope.md R8;
log entry 7). -/
opaque Config.namesToken : Nat → Bool

/-- `HostFailure`, the type of the failure tokens a byte source or sink may answer: the spec's parameter
(20_memory.md R36). Its tokens are those of `Config.namesToken`. DEDUCED (log entry 7): there is at least one, since a
source at end of data answers `fail(f)` (70_reset_and_hazards.md R132). The block only copies a token, as
`Obligations.HostFailureIsOpaque` says. -/
structure HostFailure where
  /-- The number that names the token. -/
  token : Nat
  /-- The parameter has it for a token. -/
  isToken : token = 0 ∨ Config.namesToken token = true
  deriving DecidableEq, Repr

end Sys2Proof
end

