-- ==== Sys2Proof/Syntax.lean ====
section
/-! DEFINITION. The eleven requests of the opcode map (30_encoding.md R53), one constructor per row of
spec/opcode_table.json, with the operands of R55. There are no pseudo-instructions (R58). -/

namespace Sys2Proof

/-- One request with its operands assembled (30_encoding.md R55, R57). -/
inductive Instr where
  /-- `ENC32 v`: the VarInt32 encoder (41_codec32.md R76). -/
  | enc32 (v : Word32)
  /-- `ENC64 v`: the VarInt64 encoder (42_codec64.md R91). -/
  | enc64 (v : Word64)
  /-- `DEC32`: the VarInt32 decoder (41_codec32.md R80). -/
  | dec32
  /-- `DEC64`: the VarInt64 decoder (42_codec64.md R95). -/
  | dec64
  /-- `PACK32 v`: byte composition, width 32 (40_primitives.md R62). -/
  | pack32 (v : Word32)
  /-- `PACK64 v`: byte composition, width 64 (40_primitives.md R62). -/
  | pack64 (v : Word64)
  /-- `PLACE32 acc, j, b`: segment placement, width 32 (40_primitives.md R64). -/
  | place32 (acc : Word32) (j : Nibble) (b : Byte)
  /-- `PLACE64 acc, j, b`: segment placement, width 64 (40_primitives.md R64). -/
  | place64 (acc : Word64) (j : Nibble) (b : Byte)
  /-- `VALID32 k, b`: the malformed-sequence validator, width 32 (40_primitives.md R67). -/
  | valid32 (k : Nibble) (b : Byte)
  /-- `VALID64 k, b`: the malformed-sequence validator, width 64 (40_primitives.md R67). -/
  | valid64 (k : Nibble) (b : Byte)
  /-- `CONT b`: the continuation-bit extractor (40_primitives.md R61). -/
  | cont (b : Byte)
  deriving DecidableEq, Repr

end Sys2Proof
end

