-- ==== Sys2Proof/Decode.lean ====
section
/-! DEFINITION. Requests as the host presents them (10_state.md R15), the command word's fields (30_encoding.md R51),
decoding (R53, R55) and the encoder written from the same table. -/

namespace Sys2Proof

/-- The four fields of a request (10_state.md R15). -/
structure Request where
  /-- `CMD`: selects the operation. -/
  cmd : Byte
  /-- `OPA`: the value operand. -/
  opa : Word64
  /-- `OPB`: the byte operand. -/
  opb : Byte
  /-- `OPI`: the index operand. -/
  opi : Nibble
  deriving DecidableEq, Repr

/-- Why a request has no instruction. -/
inductive DecodeError where
  /-- A command word outside the eleven assigned values (30_encoding.md R54); the block answers `ILLEGAL_COMMAND`. -/
  | reservedCommand (cmd : Byte)
  deriving DecidableEq, Repr

/-- `RSV`, bits 7:4 of the command word (30_encoding.md R51). -/
def Request.rsv (r : Request) : Nibble := r.cmd.extractLsb' 4 4

/-- `FN`, bits 3:1 of the command word: the function select (30_encoding.md R51). -/
def Request.fn (r : Request) : BitVec 3 := r.cmd.extractLsb' 1 3

/-- `W`, bit 0 of the command word: set for width 64 (30_encoding.md R51). -/
def Request.w (r : Request) : Bool := r.cmd.getLsbD 0

/-- The opcode map: the whole command word is matched (30_encoding.md R53), and the operands are taken from the
request's fields without extension, scaling or shift (R55). An index out of range is no decoding error: the
operation itself answers it (R64, R67). -/
def decode (r : Request) : Except DecodeError Instr :=
  match r.cmd.toNat with
  | 0x00 => .ok (.enc32 (r.opa.setWidth 32))
  | 0x01 => .ok (.enc64 r.opa)
  | 0x02 => .ok .dec32
  | 0x03 => .ok .dec64
  | 0x04 => .ok (.pack32 (r.opa.setWidth 32))
  | 0x05 => .ok (.pack64 r.opa)
  | 0x06 => .ok (.place32 (r.opa.setWidth 32) r.opi r.opb)
  | 0x07 => .ok (.place64 r.opa r.opi r.opb)
  | 0x08 => .ok (.valid32 r.opi r.opb)
  | 0x09 => .ok (.valid64 r.opi r.opb)
  | 0x0A => .ok (.cont r.opb)
  | _ => .error (.reservedCommand r.cmd)

/-- The request of an instruction: its command word (30_encoding.md R53), its operands zero-extended into their
fields, and 0 in the fields its form does not set (R57). -/
def encode : Instr → Request
  | .enc32 v => ⟨0x00, v.setWidth 64, 0, 0⟩
  | .enc64 v => ⟨0x01, v, 0, 0⟩
  | .dec32 => ⟨0x02, 0, 0, 0⟩
  | .dec64 => ⟨0x03, 0, 0, 0⟩
  | .pack32 v => ⟨0x04, v.setWidth 64, 0, 0⟩
  | .pack64 v => ⟨0x05, v, 0, 0⟩
  | .place32 acc j b => ⟨0x06, acc.setWidth 64, b, j⟩
  | .place64 acc j b => ⟨0x07, acc, b, j⟩
  | .valid32 k b => ⟨0x08, 0, b, k⟩
  | .valid64 k b => ⟨0x09, 0, b, k⟩
  | .cont b => ⟨0x0A, 0, b, 0⟩

/-- The bits of `OPA` the operation of a request reads: by function select, all or none (30_encoding.md R55), and
at width 32 only bits 31:0 (10_state.md R15). -/
def Request.readOpa (r : Request) : Word64 :=
  let field : Word64 := if r.fn = 0 ∨ r.fn = 2 ∨ r.fn = 3 then r.opa else 0
  if r.w then field else field &&& 0xFFFFFFFF

/-- `OPB` where the operation reads it: `PLACE`, `VALID`, `CONT` (30_encoding.md R55). -/
def Request.readOpb (r : Request) : Byte :=
  if r.fn = 3 ∨ r.fn = 4 ∨ r.fn = 5 then r.opb else 0

/-- `OPI` where the operation reads it: `PLACE`, `VALID` (30_encoding.md R55). -/
def Request.readOpi (r : Request) : Nibble :=
  if r.fn = 3 ∨ r.fn = 4 then r.opi else 0

/-- The request with every ignored field cleared, read off the command word's fields alone: what an encoding of the
same operation holds (30_encoding.md R51, R55, R57). -/
def Request.canonical (r : Request) : Request := ⟨r.cmd, r.readOpa, r.readOpb, r.readOpi⟩

/-- A request laid out in one row of bits. DESIGN CHOICE (log entry 10): the spec's fields are parallel; `CMD` is
bits 7:0 as the opcode table numbers it, then `OPA`, `OPB` and `OPI` in R15's order. -/
def Request.ofBits (w : Nat) : Request where
  cmd := BitVec.ofNat 8 w
  opa := BitVec.ofNat 64 (w / 2 ^ 8)
  opb := BitVec.ofNat 8 (w / 2 ^ 72)
  opi := BitVec.ofNat 4 (w / 2 ^ 80)

/-- The request whose first `nbits` bits are `w`, every bit above them 0. -/
def tableRequest (nbits w : Nat) : Request := Request.ofBits (w % 2 ^ nbits)

/-- The instruction the decoder reads from the table's bits. -/
def decodeTableWord (nbits w : Nat) : Option Instr :=
  match decode (tableRequest nbits w) with
  | .ok i => some i
  | .error _ => none

end Sys2Proof
end

