-- ==== Sys2Proof/Machine/State.lean ====
section
/-! DEFINITION. The block's state as plain data: the engine registers (10_state.md R17 to R21), the ports (R15, R16),
the reset input (70_reset_and_hazards.md R125), and the host's side of the streams. The block has no register file,
program counter, control register or memory (R13, R14, R23, R24; 20_memory.md R30). -/

namespace Sys2Proof.Machine

/-- `PHASE`: the engine's control state (10_state.md R17). -/
inductive Phase where
  /-- The engine can accept a request. -/
  | idle
  /-- The engine's only step is one sink write. -/
  | encBusy
  /-- The engine's only step is one source read. -/
  | decBusy
  deriving DecidableEq, Repr

/-- The value of `WID`: the width of a codec operation (10_state.md R18). -/
inductive Width where
  | w32
  | w64
  deriving DecidableEq, Repr

/-- A register with the spec's own mark of whether it has been written since reset (10_state.md R27).
DESIGN CHOICE (log entry 1): an unwritten register stores a value too, so a read never stops. Safe: no rule reads an
unwritten register, and `Obligations.DeadRegistersNeverObserved` says the stored value shows nowhere. -/
structure Reg (α : Type) where
  val : α
  written : Bool
  deriving DecidableEq, Repr

/-- `STATUS` (60_exceptions.md R105). -/
inductive Status where
  | ok
  | invalidEncoding
  | sourceFailure
  | sinkFailure
  | illegalCommand
  deriving DecidableEq, Repr

/-- The response fields (10_state.md R16). -/
structure Response where
  /-- `STATUS`: the outcome. -/
  status : Status
  /-- `RES`: the result value. -/
  res : Word64
  /-- `RCNT`: the byte transfers that completed. -/
  rcnt : Nibble
  /-- `FAIL`: the host's failure token. -/
  fail : Option HostFailure
  deriving DecidableEq, Repr

/-- The host's answer to one read handshake (20_memory.md R33). -/
inductive SourceAnswer where
  | byte (b : Byte)
  | fail (f : HostFailure)
  deriving DecidableEq, Repr

/-- The host's answer to one write handshake (20_memory.md R34). -/
inductive SinkAnswer where
  | ack
  | fail (f : HostFailure)
  deriving DecidableEq, Repr

/-- What stops the machine. The block itself never stops: its errors are statuses of a response
(60_exceptions.md R111). -/
inductive Fault where
  /-- Raised by `System.atInstance` alone, when asked for an instance the system does not have
  (60_exceptions.md R118; log entry 8). Safe. -/
  | noSuchInstance
  deriving DecidableEq, Repr

/-- What the model gives no meaning. -/
inductive Refusal where
  /-- An instruction that has no meaning yet; no arm of `exec` answers it. Safe. -/
  | notModelled (mnemonic : String)
  /-- Raised by `System.atInstance` alone, when two instances share a source or a sink: the block gives such a
  configuration no meaning and "a model refuses it" (70_reset_and_hazards.md R130; log entry 14). Safe. -/
  | sharedStream
  deriving DecidableEq, Repr

/-- One instance of the block with the host's side of its ports. -/
structure State where
  /-- `PHASE` (10_state.md R17). -/
  phase : Phase
  /-- `WID` (10_state.md R18). -/
  wid : Reg Width
  /-- `REM`, in the low `WID` bits (10_state.md R19, R29; log entry 9). -/
  rem : Reg Word64
  /-- `ACC`, in the low `WID` bits (10_state.md R20, R29; log entry 9). -/
  acc : Reg Word64
  /-- `IDX` (10_state.md R21). -/
  idx : Reg Nibble
  /-- The reset input, true while the host asserts it (70_reset_and_hazards.md R125; log entry 3). -/
  resetIn : Bool
  /-- The response port: the response the last step delivered, if it delivered one; no later step holds it
  (10_state.md R16, R23, R27; log entry 6). -/
  response : Option Response
  /-- The host's requests in the order it issues them; the head stands on the request port and is held there until
  accepted (10_state.md R15, 60_exceptions.md R117; log entry 5). -/
  requests : List Request
  /-- The source's answers to the reads to come (20_memory.md R33; log entry 4). -/
  source : List SourceAnswer
  /-- The sink's answers to the writes to come (20_memory.md R34; log entry 4). -/
  sinkAnswers : List SinkAnswer
  /-- The bytes the sink has acknowledged, oldest first (20_memory.md R34, R42; log entry 13). -/
  sink : List Byte
  /-- The responses delivered, oldest first (10_state.md R16; log entry 6). -/
  responses : List Response
  deriving DecidableEq, Repr

/-- The machine right after reset (10_state.md R27): idle, the four registers unwritten, no response pending, no
request accepted, reset released. The stored values of the unwritten registers are DESIGN CHOICE (log entry 1); no
request presented, no answer given and nothing recorded is the host's side before its first act (log entries 4 to 6,
13). -/
def State.reset : State where
  phase := .idle
  wid := ⟨.w32, false⟩
  rem := ⟨0, false⟩
  acc := ⟨0, false⟩
  idx := ⟨0, false⟩
  resetIn := false
  response := none
  requests := []
  source := []
  sinkAnswers := []
  sink := []
  responses := []

end Sys2Proof.Machine
end

