-- ==== Sys2Proof/Machine/Operands.lean ====
section
/-! DEFINITION. The width-dependent constants (00_scope.md R7), the index ranges (30_encoding.md R55), and how a
result and an operand cross between their own width and a 64-bit field (10_state.md R15, R16, R29). -/

namespace Sys2Proof.Machine

/-- `W`: the operand width in bits (00_scope.md R7). -/
def Width.bits : Width → Nat
  | .w32 => 32
  | .w64 => 64

/-- `N`: the longest encoded sequence in bytes (00_scope.md R7). -/
def Width.maxBytes : Width → Nat
  | .w32 => 5
  | .w64 => 10

/-- `MASK`: the disallowed bits of byte number `N` (00_scope.md R7; 90_conflicts.md C1 settles `0xF0`). -/
def Width.mask : Width → Byte
  | .w32 => 0xF0
  | .w64 => 0xFE

/-- The numeric code of a `STATUS` (60_exceptions.md R105); codes 5 to 7 are never produced. -/
def Status.code : Status → BitVec 3
  | .ok => 0
  | .invalidEncoding => 1
  | .sourceFailure => 2
  | .sinkFailure => 3
  | .illegalCommand => 4

/-- A value of either width in a 64-bit field or register, upper bits 0 (10_state.md R16). -/
def toField {n : Nat} (v : BitVec n) : Word64 := v.setWidth 64

/-- The low `W` bits of a 64-bit field or register; the bits above are ignored (10_state.md R15, R29). -/
def fromField (w : Width) (x : Word64) : BitVec w.bits := x.setWidth w.bits

/-- `j` is an iteration index of the width: 0 to `N - 1` (30_encoding.md R55). -/
def indexLegal (w : Width) (j : Nibble) : Bool := decide (j.toNat ≤ w.maxBytes - 1)

/-- `k` is a byte number of the width: 1 to `N` (30_encoding.md R55). -/
def byteNumberLegal (w : Width) (k : Nibble) : Bool := decide (k.toNat ≠ 0 ∧ k.toNat ≤ w.maxBytes)

/-- The host's two's-complement reading of a pattern (00_scope.md R11); no rule of the block depends on it. -/
def signedReading {n : Nat} (p : BitVec n) : Int :=
  if p.getLsbD (n - 1) then (p.toNat : Int) - 2 ^ n else p.toNat

end Sys2Proof.Machine
end

