-- ==== Sys2Proof/Machine/Ops.lean ====
section
/-! DEFINITION. The named operations every meaning is built from: accepting a request, the two handshakes, delivering
a response, raising an error, latching a codec operation, and reset. -/

namespace Sys2Proof.Machine

/-- A register that has been written. -/
def Reg.holding {α : Type} (v : α) : Reg α := ⟨v, true⟩

/-- `respond(status, res, rcnt, fail)`: deliver the response and return the engine to `IDLE`
(00_scope.md R12, 10_state.md R16). The registers keep what they hold (10_state.md R28, log entry 2). -/
def State.respond (s : State) (status : Status) (res : Word64) (rcnt : Nibble) (fail : Option HostFailure) : State :=
  let r : Response := ⟨status, res, rcnt, fail⟩
  { s with phase := .idle, response := some r, responses := s.responses ++ [r] }

/-- Taking an error, the block's "trap entry": the operation ends in this step with the response
`respond(status, 0, rcnt, fail)`; nothing is saved, and there is no vector, stack or mode (60_exceptions.md R111).
There is no return from an error: the engine is `IDLE` and accepts the next request (R114). -/
def State.raise (s : State) (status : Status) (rcnt : Nibble) (fail : Option HostFailure) : State :=
  s.respond status 0 rcnt fail

/-- `ILLEGAL_COMMAND`: no effect besides its response (60_exceptions.md R110). -/
def State.illegalCommand (s : State) : State := s.raise .illegalCommand 0 none

/-- The response port as every step finds it: a response "is not held after the response is delivered" in the step
that ended its operation (10_state.md R16, R23; log entry 6). -/
def State.clearResponse (s : State) : State := { s with response := none }

/-- The request leaves the request port; the response of the operation before it is no longer on the response port
(10_state.md R23, 20_memory.md R43; log entry 6). -/
def State.takeRequest (s : State) : State := { s with requests := s.requests.tail, response := none }

/-- Accept a request in `IDLE` and do `op` in the same step. While the engine is busy the request is not accepted
and not lost: it stays on the port and nothing changes (60_exceptions.md R117; log entry 12). -/
def accept (s : State) (op : State → State) : Host.Outcome State Fault Refusal :=
  match s.phase with
  | .idle => .next (op s.takeRequest)
  | .encBusy => .next s
  | .decBusy => .next s

/-- The acceptance of an encode: `WID`, `REM` and `IDX` are written and the engine is `ENC_BUSY`; no transfer
(41_codec32.md R76, 42_codec64.md R91). -/
def State.beginEncode (s : State) (w : Width) (v : Word64) : State :=
  { s with phase := .encBusy, wid := .holding w, rem := .holding v, idx := .holding 0 }

/-- The acceptance of a decode: `WID`, `ACC` and `IDX` are written and the engine is `DEC_BUSY`; no transfer
(41_codec32.md R80, 42_codec64.md R95). -/
def State.beginDecode (s : State) (w : Width) : State :=
  { s with phase := .decBusy, wid := .holding w, acc := .holding 0, idx := .holding 0 }

/-- An encode goes on: `REM` and `IDX` are written (41_codec32.md R76). -/
def State.keepEncoding (s : State) (rem : Word64) (idx : Nibble) : State :=
  { s with rem := .holding rem, idx := .holding idx }

/-- A decode goes on: `ACC` and `IDX` are written (41_codec32.md R80). -/
def State.keepDecoding (s : State) (acc : Word64) (idx : Nibble) : State :=
  { s with acc := .holding acc, idx := .holding idx }

/-- `ReadByte()`: the host's answer, consumed (20_memory.md R33, R42). `none`: the host has not answered, and the
engine waits without a timeout (70_reset_and_hazards.md R132; log entry 4). -/
def readByte (s : State) : Option (SourceAnswer × State) :=
  match s.source with
  | [] => none
  | a :: rest => some (a, { s with source := rest })

/-- `WriteByte(b)`: after `ack`, `b` is the next byte of the sink's stream; after a failure it counts as not written
(20_memory.md R34). `none`: the host has not answered (70_reset_and_hazards.md R132; log entry 4). -/
def writeByte (b : Byte) (s : State) : Option (SinkAnswer × State) :=
  match s.sinkAnswers with
  | [] => none
  | .ack :: rest => some (.ack, { s with sinkAnswers := rest, sink := s.sink ++ [b] })
  | .fail f :: rest => some (.fail f, { s with sinkAnswers := rest })

/-- The effect of reset (70_reset_and_hazards.md R125): `IDLE`, the four registers unwritten as right after reset,
no response pending. An operation in flight is abandoned without a response; transfers already answered stay done,
and a request not accepted stays on the port (R126). DESIGN CHOICE (log entry 19): answers the host has queued and no
transfer has taken yet stay queued, and the next operation's transfers take them. -/
def State.applyReset (s : State) : State :=
  { s with
    phase := State.reset.phase
    wid := State.reset.wid
    rem := State.reset.rem
    acc := State.reset.acc
    idx := State.reset.idx
    response := State.reset.response }

/-- A request put where the engine takes its next one, with the engine able to take it: at the head of the host's
requests, `IDLE`, reset released. -/
def State.placeRequest (s : State) (r : Request) : State :=
  { s with phase := .idle, resetIn := false, requests := r :: s.requests }

end Sys2Proof.Machine
end

