-- ==== Sys2Proof/Machine/Primitive.lean ====
section
/-! DEFINITION. The shared primitives as pure functions and as requests of their own: the continuation-bit extractor,
the 7-bit segment packer and the malformed-sequence validator (40_primitives.md). -/

namespace Sys2Proof.Machine

/-- `seg(b)`: the low 7 bits of a byte (40_primitives.md R60). -/
def seg (b : Byte) : Segment := b.extractLsb' 0 7

/-- `pack_W(v)`: the low 7 bits of the value, with the continuation bit set when any bit lies outside them
(40_primitives.md R62). -/
def pack {n : Nat} (v : BitVec n) : Byte :=
  (v.extractLsb' 0 7).setWidth 8 ||| (if more v then contBit else 0)

/-- `place_W(acc, j, b)`: the segment ORed into the accumulator at bit `7*j`; bits past the width are discarded
(40_primitives.md R64, R65). -/
def place {n : Nat} (acc : BitVec n) (j : Nat) (b : Byte) : BitVec n :=
  acc ||| ((seg b).setWidth n <<< (7 * j))

/-- `valid_W(k, b)`: false exactly for byte number `N` with a bit of `MASK` set (40_primitives.md R66;
90_conflicts.md C3: no other byte number is checked). -/
def valid (w : Width) (k : Nat) (b : Byte) : Bool := !(k == w.maxBytes && (b &&& w.mask) != 0)

/-- The effect of `PACKW v` (40_primitives.md R62). -/
def packEffect {n : Nat} (v : BitVec n) (s : State) : State := s.respond .ok (toField (pack v)) 0 none

/-- The effect of `PLACEW acc, j, b` (40_primitives.md R64). -/
def placeEffect (w : Width) (acc : BitVec w.bits) (j : Nibble) (b : Byte) (s : State) : State :=
  if indexLegal w j then s.respond .ok (toField (place acc j.toNat b)) 0 none else s.illegalCommand

/-- The effect of `VALIDW k, b` (40_primitives.md R67). -/
def validEffect (w : Width) (k : Nibble) (b : Byte) (s : State) : State :=
  if byteNumberLegal w k then
    if valid w k.toNat b then s.respond .ok 0 0 none else s.raise .invalidEncoding 0 none
  else s.illegalCommand

/-- `PACK32 v` (40_primitives.md R62). -/
def execPack32 (v : Word32) (s : State) : Host.Outcome State Fault Refusal := accept s (packEffect v)

/-- `PACK64 v` (40_primitives.md R62). -/
def execPack64 (v : Word64) (s : State) : Host.Outcome State Fault Refusal := accept s (packEffect v)

/-- `PLACE32 acc, j, b` (40_primitives.md R64). -/
def execPlace32 (acc : Word32) (j : Nibble) (b : Byte) (s : State) : Host.Outcome State Fault Refusal :=
  accept s (placeEffect .w32 acc j b)

/-- `PLACE64 acc, j, b` (40_primitives.md R64). -/
def execPlace64 (acc : Word64) (j : Nibble) (b : Byte) (s : State) : Host.Outcome State Fault Refusal :=
  accept s (placeEffect .w64 acc j b)

/-- `VALID32 k, b` (40_primitives.md R67). -/
def execValid32 (k : Nibble) (b : Byte) (s : State) : Host.Outcome State Fault Refusal :=
  accept s (validEffect .w32 k b)

/-- `VALID64 k, b` (40_primitives.md R67). -/
def execValid64 (k : Nibble) (b : Byte) (s : State) : Host.Outcome State Fault Refusal :=
  accept s (validEffect .w64 k b)

/-- `CONT b` (40_primitives.md R61). -/
def execCont (b : Byte) (s : State) : Host.Outcome State Fault Refusal :=
  accept s fun s => s.respond .ok (toField (BitVec.ofBool (cont b))) 0 none

end Sys2Proof.Machine
end

