-- ==== Sys2Proof/Machine/Codec.lean ====
section
/-! DEFINITION. The VarInt32 and VarInt64 codecs, one text over the width, since they are "structurally identical
algorithms" (00_scope.md R3): the pure functions `encode_W` and `decode_W`, the acceptance of `ENC` and `DEC`, and
the step each makes while busy (41_codec32.md, 42_codec64.md). -/

namespace Sys2Proof.Machine

/-- The encode loop, at most `fuel` times round: emit a byte, shift logically by 7, stop when nothing remains
(41_codec32.md R70, 42_codec64.md R90). -/
def encodeLoop {n : Nat} : Nat → BitVec n → List Byte
  | 0, _ => []
  | fuel + 1, r => pack r :: (if r >>> 7 = 0 then [] else encodeLoop fuel (r >>> 7))

/-- `encode_W(v)` (41_codec32.md R70, 42_codec64.md R90); the loop ends within `N` rounds (R74). -/
def encodeW (w : Width) (v : BitVec w.bits) : List Byte := encodeLoop w.maxBytes v

/-- What `decode_W` returns, with the number of bytes consumed (41_codec32.md R78). -/
inductive DecodeResult (n : Nat) where
  | ok (value : BitVec n) (count : Nat)
  | invalidEncoding (count : Nat)
  | sourceFailure (f : HostFailure) (count : Nat)
  /-- The host has not yet answered the next read: the decode has not ended (60_exceptions.md R124). -/
  | unanswered (count : Nat)
  deriving DecidableEq, Repr

/-- The decode loop from the accumulator `acc` after `k` bytes (41_codec32.md R78, 42_codec64.md R94). -/
def decodeLoop (w : Width) (acc : BitVec w.bits) (k : Nat) : List SourceAnswer → DecodeResult w.bits
  | [] => .unanswered k
  | .fail f :: _ => .sourceFailure f k
  | .byte b :: rest =>
    if valid w (k + 1) b = false then .invalidEncoding (k + 1)
    else if cont b then decodeLoop w (place acc k b) (k + 1) rest
    else .ok (place acc k b) (k + 1)

/-- `decode_W(source)` (41_codec32.md R78, 42_codec64.md R94). -/
def decodeW (w : Width) (source : List SourceAnswer) : DecodeResult w.bits := decodeLoop w 0 0 source

/-- The byte the engine offers to the sink while `ENC_BUSY` (41_codec32.md R76). -/
def offeredByte (w : Width) (s : State) : Byte := pack (fromField w s.rem.val)

/-- One step in `ENC_BUSY`: exactly one sink write (41_codec32.md R76, 42_codec64.md R91). -/
def encodeStep (w : Width) (s : State) : State :=
  match writeByte (offeredByte w s) s with
  | none => s
  | some (.fail f, s') => s'.raise .sinkFailure s.idx.val (some f)
  | some (.ack, s') =>
    let rest : BitVec w.bits := fromField w s.rem.val >>> 7
    if rest = 0 then s'.respond .ok 0 (s.idx.val + 1) none
    else s'.keepEncoding (toField rest) (s.idx.val + 1)

/-- One step in `DEC_BUSY`: exactly one source read (41_codec32.md R80, 42_codec64.md R95). The order is that of
60_exceptions.md R112: the source's answer, the validator, the continuation bit. -/
def decodeStep (w : Width) (s : State) : State :=
  match readByte s with
  | none => s
  | some (.fail f, s') => s'.raise .sourceFailure s.idx.val (some f)
  | some (.byte b, s') =>
    let k : Nibble := s.idx.val + 1
    let acc : BitVec w.bits := place (fromField w s.acc.val) s.idx.val.toNat b
    if valid w k.toNat b = false then s'.raise .invalidEncoding k none
    else if cont b then s'.keepDecoding (toField acc) k
    else s'.respond .ok (toField acc) k none

/-- `ENC32 v`, its acceptance; `encodeStep .w32` does the rest (41_codec32.md R76). -/
def execEnc32 (v : Word32) (s : State) : Host.Outcome State Fault Refusal :=
  accept s fun s => s.beginEncode .w32 (toField v)

/-- `ENC64 v`, its acceptance; `encodeStep .w64` does the rest (42_codec64.md R91). -/
def execEnc64 (v : Word64) (s : State) : Host.Outcome State Fault Refusal :=
  accept s fun s => s.beginEncode .w64 (toField v)

/-- `DEC32`, its acceptance; `decodeStep .w32` does the rest (41_codec32.md R80). -/
def execDec32 (s : State) : Host.Outcome State Fault Refusal := accept s fun s => s.beginDecode .w32

/-- `DEC64`, its acceptance; `decodeStep .w64` does the rest (42_codec64.md R95). -/
def execDec64 (s : State) : Host.Outcome State Fault Refusal := accept s fun s => s.beginDecode .w64

end Sys2Proof.Machine
end

