-- ==== Sys2Proof/Machine/Dispatch.lean ====
section
/-! DEFINITION. One arm per request of the opcode map (30_encoding.md R53, R56). -/

namespace Sys2Proof.Machine

def exec (i : Instr) (s : State) : Host.Outcome State Fault Refusal :=
  match i with
  | .enc32 v => Sys2Proof.Machine.execEnc32 v s
  | .enc64 v => Sys2Proof.Machine.execEnc64 v s
  | .dec32 => Sys2Proof.Machine.execDec32 s
  | .dec64 => Sys2Proof.Machine.execDec64 s
  | .pack32 v => Sys2Proof.Machine.execPack32 v s
  | .pack64 v => Sys2Proof.Machine.execPack64 v s
  | .place32 acc j b => Sys2Proof.Machine.execPlace32 acc j b s
  | .place64 acc j b => Sys2Proof.Machine.execPlace64 acc j b s
  | .valid32 k b => Sys2Proof.Machine.execValid32 k b s
  | .valid64 k b => Sys2Proof.Machine.execValid64 k b s
  | .cont b => Sys2Proof.Machine.execCont b s

end Sys2Proof.Machine
end

