-- ==== Sys2Proof/Machine/Engine.lean ====
section
/-! DEFINITION. The engine's control: what one step does (00_scope.md R6, 10_state.md R17, 30_encoding.md R56). -/

namespace Sys2Proof.Machine

/-- Acceptance and dispatch (30_encoding.md R56): a reserved command word is answered `ILLEGAL_COMMAND` before any
operand is looked at (R54); every other request runs its instruction. -/
def acceptRequest (r : Request) (s : State) : Host.Outcome State Fault Refusal :=
  match decode r with
  | .ok i => exec i s
  | .error (.reservedCommand _) => accept s State.illegalCommand

/-- One step of the engine. While reset stays asserted it stays in effect and no engine step happens
(70_reset_and_hazards.md R125, R128; log entry 3). In `IDLE` the engine accepts the request on the port or waits for
one (R127); while busy it makes the one transfer of its phase (10_state.md R17). No step holds the response an earlier
one delivered (R23). -/
def engineStep (s : State) : Host.Outcome State Fault Refusal :=
  if s.resetIn then .next s.applyReset
  else
    match s.phase with
    | .idle =>
      match s.requests with
      | [] => .next s.clearResponse
      | r :: _ => acceptRequest r s
    | .encBusy => .next (encodeStep s.wid.val s.clearResponse)
    | .decBusy => .next (decodeStep s.wid.val s.clearResponse)

end Sys2Proof.Machine
end

