-- ==== Sys2Proof/Machine/Step.lean ====
section
/-! DEFINITION. One step of the machine, and a request placed where it takes its next one. -/

namespace Sys2Proof.Machine

/-- One atomic step (00_scope.md R6): see `engineStep`. -/
def step (s : State) : Host.Outcome State Fault Refusal := engineStep s

/-- The request whose first `nbits` bits are `w` (every other bit 0), presented where the next step accepts it. It
stands for the host's presenting that request (10_state.md R14; log entry 17). -/
def State.withFetchWord (s : State) (nbits w : Nat) : State := s.placeRequest (tableRequest nbits w)

end Sys2Proof.Machine
end

