-- ==== Sys2Proof/Machine/Environment.lean ====
section
/-! DEFINITION. What the host may do between two engine steps (20_memory.md section 6). -/

namespace Sys2Proof.Machine

/-- One act of the host. -/
inductive HostAct where
  /-- Present a request, after those it presented before (10_state.md R15, 70_reset_and_hazards.md R131). -/
  | present (r : Request)
  /-- Answer a read with any byte or any failure (20_memory.md R33). -/
  | answerRead (a : SourceAnswer)
  /-- Answer a write with `ack` or any failure (20_memory.md R34). -/
  | answerWrite (a : SinkAnswer)
  /-- Assert reset, in any state, between any two engine steps: its effect is there at once, however soon reset is
  released (70_reset_and_hazards.md R125). -/
  | assertReset
  /-- Release reset (70_reset_and_hazards.md R128). -/
  | releaseReset
  /-- Read the response on the port (10_state.md R16); it changes nothing of the block. -/
  | readResponse
  deriving DecidableEq, Repr

/-- The effect of a host act. None but reset moves the engine: "a liberty never lets the engine progress"
(20_memory.md section 6); the block then gets back "engine `IDLE`" (same table). -/
def HostAct.apply (a : HostAct) (s : State) : State :=
  match a with
  | .present r => { s with requests := s.requests ++ [r] }
  | .answerRead x => { s with source := s.source ++ [x] }
  | .answerWrite x => { s with sinkAnswers := s.sinkAnswers ++ [x] }
  | .assertReset => { s.applyReset with resetIn := true }
  | .releaseReset => { s with resetIn := false }
  | .readResponse => s

end Sys2Proof.Machine
end

