-- ==== Sys2Proof/Machine/System.lean ====
section
/-! DEFINITION. A system of `N_INST` instances (60_exceptions.md R118): each has its own engine, ports, source and
sink; which instance steps next is anyone's choice (20_memory.md R44). -/

namespace Sys2Proof.Machine

/-- One instance with the streams it is connected to. -/
structure Instance where
  engine : State
  /-- Which byte source of the host it is connected to. -/
  sourceId : Nat
  /-- Which byte sink of the host it is connected to. -/
  sinkId : Nat
  deriving DecidableEq, Repr

/-- The instances of a system; their number is `N_INST`, at least 1 (00_scope.md R8, 60_exceptions.md R118). -/
structure System where
  instances : List Instance
  /-- `N_INST >= 1`. -/
  atLeastOne : instances ≠ []
  deriving DecidableEq, Repr

/-- No two instances share a source or a sink (70_reset_and_hazards.md R129). -/
def System.exclusive (sys : System) : Bool :=
  decide ((sys.instances.map Instance.sourceId).Nodup ∧ (sys.instances.map Instance.sinkId).Nodup)

/-- Instances connected as given, right after reset: they "start together at reset" (60_exceptions.md R118). -/
def System.reset (first : Nat × Nat) (others : List (Nat × Nat)) : System where
  instances := (first :: others).map fun c => ⟨State.reset, c.1, c.2⟩
  atLeastOne := by simp

/-- `sys` with `t` as the engine state of its instance `i`, which is `inst`. -/
def System.setEngine (sys : System) (i : Nat) (inst : Instance) (t : State) : System where
  instances := sys.instances.set i { inst with engine := t }
  atLeastOne := by simpa using sys.atLeastOne

/-- `op` done at instance `i`, nothing done at any other. A system in which a stream is shared has no meaning and is
refused (70_reset_and_hazards.md R130; log entry 14). -/
def System.atInstance (sys : System) (i : Nat) (op : State → Host.Outcome State Fault Refusal) :
    Host.Outcome System Fault Refusal :=
  if sys.exclusive then
    match sys.instances[i]? with
    | none => .fault .noSuchInstance
    | some inst =>
      match op inst.engine with
      | .next t => .next (sys.setEngine i inst t)
      | .fault e => .fault e
      | .refused e => .refused e
  else .refused .sharedStream

/-- Instance `i` takes a step (20_memory.md R44). -/
def System.stepAt (sys : System) (i : Nat) : Host.Outcome System Fault Refusal := sys.atInstance i step

/-- The host acts on instance `i`. DESIGN CHOICE (log entry 18): each instance has a reset input of its own
(70_reset_and_hazards.md R125), asserted and released for it alone; the spec does not say whether one reset reaches
all instances, and a host that resets the whole system acts on each. -/
def System.actAt (sys : System) (i : Nat) (a : HostAct) : Host.Outcome System Fault Refusal :=
  sys.atInstance i fun s => .next (a.apply s)

end Sys2Proof.Machine
end

