-- ==== Sys2Proof/WellFormed.lean ====
section
/-! DEFINITION. The legal operand ranges of 30_encoding.md R55. An instruction outside them is no encoding error:
the block accepts it and answers `ILLEGAL_COMMAND` (R55, R110). -/

namespace Sys2Proof

/-- The operands lie in the "legal range" column of 30_encoding.md R55. -/
def Instr.wellFormed : Instr → Bool
  | .enc32 _ => true
  | .enc64 _ => true
  | .dec32 => true
  | .dec64 => true
  | .pack32 _ => true
  | .pack64 _ => true
  | .place32 _ j _ => decide (j.toNat ≤ 4)
  | .place64 _ j _ => decide (j.toNat ≤ 9)
  | .valid32 k _ => decide (1 ≤ k.toNat ∧ k.toNat ≤ 5)
  | .valid64 k _ => decide (1 ≤ k.toNat ∧ k.toNat ≤ 10)
  | .cont _ => true

end Sys2Proof
end

