-- ==== Sys2Proof/Safety.lean ====
section
/-! DEFINITION. The terms claims about the machine use: runs, the invariants of 10_state.md R26, what the host can
observe, which registers are live, renaming of failure tokens, and what an instruction starts. -/

namespace Sys2Proof.Machine

/-- `k` steps, stopping at the first fault or refusal. -/
def run : Nat → State → Host.Outcome State Fault Refusal
  | 0, s => .next s
  | k + 1, s =>
    match step s with
    | .next t => run k t
    | .fault e => .fault e
    | .refused e => .refused e

/-- `s` after accepting the request on its port and answering it with `r` in the same step, nothing else changed. -/
def State.answeredWith (s : State) (r : Response) : State :=
  { s with phase := .idle, requests := s.requests.tail, response := some r, responses := s.responses ++ [r] }

/-- `s` after ending the operation in progress with `r`, nothing else changed. -/
def State.endedWith (s : State) (r : Response) : State :=
  { s with phase := .idle, response := some r, responses := s.responses ++ [r] }

/-! ### The invariants of 10_state.md R26 -/

/-- While the engine is busy, `IDX <= N - 1`; so `IDX <= N` in every phase but `IDLE` (10_state.md R26). -/
abbrev State.IndexBounded (s : State) : Prop :=
  s.phase ≠ .idle → s.idx.val.toNat ≤ s.wid.val.maxBytes - 1

/-- While encoding, nothing has been emitted yet or more remains to be emitted (10_state.md R26). -/
abbrev State.RemainderPending (s : State) : Prop :=
  s.phase = .encBusy → s.rem.val ≠ 0 ∨ s.idx.val = 0

/-- While encoding, the remaining value has at most `W - 7*IDX` significant bits (10_state.md R26). -/
abbrev State.RemainderBounded (s : State) : Prop :=
  s.phase = .encBusy → s.rem.val.toNat < 2 ^ (s.wid.val.bits - 7 * s.idx.val.toNat)

/-- While decoding, the accumulator holds only the groups read so far. -/
abbrev State.AccumulatorBounded (s : State) : Prop :=
  s.phase = .decBusy → s.acc.val.toNat < 2 ^ (7 * s.idx.val.toNat)

/-- The registers an operation in progress reads have been written (10_state.md R27, R28). -/
abbrev State.ReadRegistersWritten (s : State) : Prop :=
  (s.phase ≠ .idle → s.wid.written = true ∧ s.idx.written = true) ∧
  (s.phase = .encBusy → s.rem.written = true) ∧ (s.phase = .decBusy → s.acc.written = true)

/-- All of them together. -/
abbrev State.Inv (s : State) : Prop :=
  s.IndexBounded ∧ s.RemainderPending ∧ s.RemainderBounded ∧ s.AccumulatorBounded ∧ s.ReadRegistersWritten

/-- The states the machine can be in: from reset, by steps and by acts of the host, in any order. -/
inductive Reachable : State → Prop where
  | reset : Reachable State.reset
  | step {s t : State} (reached : Reachable s) (stepped : step s = .next t) : Reachable t
  | act {s : State} (reached : Reachable s) (a : HostAct) : Reachable (a.apply s)

/-! ### What is observed, and what is live -/

/-- What the host sees of the engine between two steps (10_state.md R25): the handshake it offers and the response
port. -/
structure Observation where
  /-- The engine accepts a request in its next step. -/
  accepting : Bool
  /-- The engine requests a byte of the source. -/
  reading : Bool
  /-- The byte the engine offers to the sink. -/
  offered : Option Byte
  response : Option Response
  deriving DecidableEq, Repr

/-- The engine's outputs in a state (10_state.md R25). It accepts a request only in `IDLE` (60_exceptions.md R117).
DESIGN CHOICE (log entry 3): what the host sees of acceptance while reset is held asserted is left open by the spec;
here it sees that the engine accepts none, as no step accepts one then. -/
def State.obs (s : State) : Observation where
  accepting := decide (s.phase = .idle ∧ s.resetIn = false)
  reading := decide (s.phase = .decBusy)
  offered := if s.phase = .encBusy then some (offeredByte s.wid.val s) else none
  response := s.response

/-- The state with its four registers as after reset: everything but the registers. -/
def State.withoutRegisters (s : State) : State :=
  { s with wid := State.reset.wid, rem := State.reset.rem, acc := State.reset.acc, idx := State.reset.idx }

/-- Two states that differ only in register values no rule reads in their phase (10_state.md R28): any in `IDLE`,
`ACC` while encoding, `REM` while decoding, and every written mark. -/
abbrev State.SameLive (s t : State) : Prop :=
  s.withoutRegisters = t.withoutRegisters ∧
  (s.phase ≠ .idle → s.wid.val = t.wid.val ∧ s.idx.val = t.idx.val) ∧
  (s.phase = .encBusy → s.rem.val = t.rem.val) ∧
  (s.phase = .decBusy → s.acc.val = t.acc.val)

/-! ### Renaming failure tokens (20_memory.md R36) -/

/-- An answer of the source with its token renamed. -/
def SourceAnswer.rename (f : HostFailure → HostFailure) : SourceAnswer → SourceAnswer
  | .byte b => .byte b
  | .fail e => .fail (f e)

/-- An answer of the sink with its token renamed. -/
def SinkAnswer.rename (f : HostFailure → HostFailure) : SinkAnswer → SinkAnswer
  | .ack => .ack
  | .fail e => .fail (f e)

/-- A response with its token renamed. -/
def Response.rename (f : HostFailure → HostFailure) (r : Response) : Response := { r with fail := r.fail.map f }

/-- A state with every token in it renamed. -/
def State.rename (f : HostFailure → HostFailure) (s : State) : State :=
  { s with
    response := s.response.map (Response.rename f)
    source := s.source.map (SourceAnswer.rename f)
    sinkAnswers := s.sinkAnswers.map (SinkAnswer.rename f)
    responses := s.responses.map (Response.rename f) }

/-! ### What an instruction starts -/

/-- `ENC32` and `ENC64`. -/
def startsEncode : Instr → Bool
  | .enc32 _ => true
  | .enc64 _ => true
  | .dec32 => false
  | .dec64 => false
  | .pack32 _ => false
  | .pack64 _ => false
  | .place32 _ _ _ => false
  | .place64 _ _ _ => false
  | .valid32 _ _ => false
  | .valid64 _ _ => false
  | .cont _ => false

/-- `DEC32` and `DEC64`. -/
def startsDecode : Instr → Bool
  | .enc32 _ => false
  | .enc64 _ => false
  | .dec32 => true
  | .dec64 => true
  | .pack32 _ => false
  | .pack64 _ => false
  | .place32 _ _ _ => false
  | .place64 _ _ _ => false
  | .valid32 _ _ => false
  | .valid64 _ _ => false
  | .cont _ => false

/-- `ENCW v`. -/
def encodeInstr : (w : Width) → BitVec w.bits → Instr
  | .w32, v => .enc32 v
  | .w64, v => .enc64 v

/-- `DECW`. -/
def decodeInstr : Width → Instr
  | .w32 => .dec32
  | .w64 => .dec64

/-- `PACKW v`. -/
def packInstr : (w : Width) → BitVec w.bits → Instr
  | .w32, v => .pack32 v
  | .w64, v => .pack64 v

/-- `PLACEW acc, j, b`. -/
def placeInstr : (w : Width) → BitVec w.bits → Nibble → Byte → Instr
  | .w32, acc, j, b => .place32 acc j b
  | .w64, acc, j, b => .place64 acc j b

/-- `VALIDW k, b`. -/
def validInstr : Width → Nibble → Byte → Instr
  | .w32, k, b => .valid32 k b
  | .w64, k, b => .valid64 k b

end Sys2Proof.Machine
end

