-- ==== Sys2Proof/Certificates/Slice0/Obligations.lean ====
section
/-! DEFINITION. The statements about the machine, for the provers. Each formalises rules of the spec; the rules are
named in its docstring and in OBLIGATIONS.json. -/

open Sys2Proof Sys2Proof.Machine

/-! ## Reset -/

/-- Right after reset the engine is idle, its four registers are unwritten, no response is pending and no request is
accepted (10_state.md R27). That reset is released is what the host did first (R128), and that no request stands on
the port is the model's own start (log entry 5). -/
def Obligations.ResetLeavesIdleAndUnwritten : Prop :=
  State.reset.phase = .idle ∧ State.reset.wid.written = false ∧ State.reset.rem.written = false ∧
  State.reset.acc.written = false ∧ State.reset.idx.written = false ∧ State.reset.response = none ∧
  State.reset.requests = [] ∧ State.reset.resetIn = false

/-- Asserting reset in any state makes the engine idle, its registers unwritten and the response port empty, and
delivers no response; it stays so while reset is asserted and when reset is released, however soon
(70_reset_and_hazards.md R125). That the input is a level under which steps do nothing is the model's reading
(log entry 3). -/
def Obligations.ResetInputTakesEffectInAnyState : Prop :=
  ∀ s : State,
    let t := HostAct.assertReset.apply s
    (∀ u, u = t ∨ u = HostAct.releaseReset.apply t →
      u.phase = .idle ∧ u.wid.written = false ∧ u.rem.written = false ∧ u.acc.written = false ∧
      u.idx.written = false ∧ u.response = none ∧ u.responses = s.responses) ∧
    step t = .next t

/-- Reset abandons the operation in flight without a response; what the sink acknowledged and the source returned
stays so, and a request the engine had not accepted is accepted after reset (70_reset_and_hazards.md R126). That
answers queued and not yet taken stay queued is the model's choice (log entry 19). -/
def Obligations.ResetAbandonsTheOperationAndKeepsTransfers : Prop :=
  ∀ s : State,
    let t := HostAct.assertReset.apply s
    t.phase = .idle ∧ t.responses = s.responses ∧ t.sink = s.sink ∧ t.source = s.source ∧
    t.sinkAnswers = s.sinkAnswers ∧ t.requests = s.requests ∧
    ∀ r rest, s.requests = r :: rest →
      step (HostAct.releaseReset.apply t) = acceptRequest r (HostAct.releaseReset.apply t)

/-! ## Command words and decoding -/

/-- Eleven command words written out bit by bit from 30_encoding.md R51 and R53, each with operands in its fields,
decode to their instructions, and the first reserved one does not. -/
def Obligations.CommandWordsDecodeAsTheTableSays : Prop :=
  decode ⟨0b00000000, 0xFFFFFFFF0000012C, 1, 2⟩ = .ok (.enc32 0x12C) ∧
  decode ⟨0b00000001, 0xFFFFFFFF0000012C, 1, 2⟩ = .ok (.enc64 0xFFFFFFFF0000012C) ∧
  decode ⟨0b00000010, 3, 1, 2⟩ = .ok .dec32 ∧
  decode ⟨0b00000011, 3, 1, 2⟩ = .ok .dec64 ∧
  decode ⟨0b00000100, 0x100000005, 1, 2⟩ = .ok (.pack32 5) ∧
  decode ⟨0b00000101, 0x100000005, 1, 2⟩ = .ok (.pack64 0x100000005) ∧
  decode ⟨0b00000110, 0xFFFFFFFF0000002C, 0x02, 1⟩ = .ok (.place32 0x2C 1 0x02) ∧
  decode ⟨0b00000111, 0xFFFFFFFF0000002C, 0x02, 9⟩ = .ok (.place64 0xFFFFFFFF0000002C 9 0x02) ∧
  decode ⟨0b00001000, 3, 0x0F, 5⟩ = .ok (.valid32 5 0x0F) ∧
  decode ⟨0b00001001, 3, 0x01, 10⟩ = .ok (.valid64 10 0x01) ∧
  decode ⟨0b00001010, 3, 0xAC, 2⟩ = .ok (.cont 0xAC) ∧
  decode ⟨0b00001011, 3, 0xAC, 2⟩ = .error (.reservedCommand 0x0B)

/-- Decoding and encoding agree: the encoding of an instruction decodes to it, whatever its operands; and a request
decodes to an instruction exactly when clearing the fields its operation ignores gives that instruction's encoding, so
no request decodes to two instructions and no two instructions share an encoding (30_encoding.md R51, R53, R55, R57). -/
def Obligations.DecodeAndEncodeAgree : Prop :=
  ∀ (i : Instr) (r : Request),
    decode (encode i) = .ok i ∧ (decode r = .ok i ↔ r.canonical = encode i)

/-- Exactly the command words with `RSV = 0000` and `FN`, `W` from 000, 0 to 101, 0 are assigned
(30_encoding.md R51 to R53). -/
def Obligations.ExactlyElevenCommandWordsAreAssigned : Prop :=
  ∀ r : Request, (∃ i, decode r = .ok i) ↔
    (r.rsv = 0 ∧ (r.fn.toNat ≤ 4 ∨ (r.fn = 5 ∧ r.w = false)))

/-- A request with a reserved command word is answered `ILLEGAL_COMMAND` in the accepting step; no transfer happens,
no register is written, and the engine stays idle (30_encoding.md R54). -/
def Obligations.ReservedCommandIsAnsweredIllegal : Prop :=
  ∀ (s : State) (r : Request) (rest : List Request),
    s.resetIn = false → s.phase = .idle → s.requests = r :: rest → 0x0B ≤ r.cmd.toNat →
    step s = .next (s.answeredWith ⟨.illegalCommand, 0, 0, none⟩)

/-- A request is answered `ILLEGAL_COMMAND` in its accepting step exactly when its command word is reserved or its
index operand is out of the legal range of its operation, and that answer is all the step does
(60_exceptions.md R110; the ranges are 30_encoding.md R55's, `Instr.wellFormed`). -/
def Obligations.IllegalCommandExactlyWhenReservedOrOutOfRange : Prop :=
  ∀ (s : State) (r : Request) (rest : List Request),
    s.resetIn = false → s.phase = .idle → s.requests = r :: rest →
    let illegal := 0x0B ≤ r.cmd.toNat ∨ ∃ i, decode r = .ok i ∧ i.wellFormed = false
    ((∃ t x, step s = .next t ∧ t.response = some x ∧ x.status = .illegalCommand) ↔ illegal) ∧
    (illegal → step s = .next (s.answeredWith ⟨.illegalCommand, 0, 0, none⟩))

/-! ## What a step does -/

/-- In `IDLE`, with reset released, the step runs the instruction the request on the port decodes to, and adds
nothing to it: the request leaves the port in the acceptance itself (30_encoding.md R56). -/
def Obligations.StepRunsTheDecodedInstruction : Prop :=
  ∀ (s : State) (r : Request) (rest : List Request) (i : Instr),
    s.resetIn = false → s.phase = .idle → s.requests = r :: rest → decode r = .ok i → step s = exec i s

/-- The engine waits in `IDLE` for a request and while busy for the host's answer; a waiting step changes nothing but
that the response port no longer shows the response of an earlier step (70_reset_and_hazards.md R127, R132;
10_state.md R23; log entry 6). -/
def Obligations.EngineWaitsForTheHost : Prop :=
  ∀ s : State, s.resetIn = false →
    (s.phase = .idle ∧ s.requests = [] ∨ s.phase = .encBusy ∧ s.sinkAnswers = [] ∨
      s.phase = .decBusy ∧ s.source = []) →
    step s = .next { s with response := none }

/-- A busy engine accepts no request and loses none: executing one changes nothing, a step leaves the port as it is,
and the step after the operation's response accepts the request held there (60_exceptions.md R117). -/
def Obligations.BusyEngineHoldsRequests : Prop :=
  ∀ s : State, s.resetIn = false → s.phase ≠ .idle →
    (∀ i, exec i s = .next s) ∧
    ∃ t, step s = .next t ∧ t.requests = s.requests ∧
      ∀ r rest, t.phase = .idle → s.requests = r :: rest → step t = acceptRequest r t

/-- In every state the machine has a next state: it neither faults nor refuses (92_eei_decisions.md D7, D16). -/
def Obligations.EveryStateHasANextState : Prop :=
  ∀ s : State, ∃ t, step s = .next t

/-- A step makes at most one transfer. Only a decoding engine reads the source, only an encoding engine writes the
sink, and a byte reaches the sink only when the sink acknowledges it (00_scope.md R6, 20_memory.md R31, R32, R34,
R40). -/
def Obligations.AStepMakesAtMostOneTransfer : Prop :=
  ∀ s t : State, step s = .next t →
    (t.source = s.source ∨ s.phase = .decBusy ∧ ∃ a, s.source = a :: t.source) ∧
    (t.sinkAnswers = s.sinkAnswers ∧ t.sink = s.sink ∨
      s.phase = .encBusy ∧
        ((∃ f, s.sinkAnswers = .fail f :: t.sinkAnswers ∧ t.sink = s.sink) ∨
          ∃ b, s.sinkAnswers = .ack :: t.sinkAnswers ∧ t.sink = s.sink ++ [b]))

/-- An operation in progress ends in the step that delivers its response, and only then; no step delivers two
responses (60_exceptions.md R124, 10_state.md R16). -/
def Obligations.AnOperationEndsExactlyWithItsResponse : Prop :=
  ∀ s t : State, s.resetIn = false → s.phase ≠ .idle → step s = .next t →
    (t.phase = .idle ∧ (∃ r, t.response = some r ∧ t.responses = s.responses ++ [r])) ∨
    (t.phase = s.phase ∧ t.response = none ∧ t.responses = s.responses)

/-- No step holds the response an earlier step delivered: the port shows a response exactly in the state after the
step that delivered it (10_state.md R16, R23; log entry 6), and no step delivers two. -/
def Obligations.AResponseIsNotHeldAfterItsStep : Prop :=
  ∀ s t : State, step s = .next t →
    (t.response = none ∧ t.responses = s.responses) ∨
    ∃ r, t.response = some r ∧ t.responses = s.responses ++ [r]

/-- Every response has the fields 10_state.md R16 and 60_exceptions.md R105, R107 to R109 give its status and operation.
`RES` is 0 on every status but `OK`, in every answer of an encode and of `VALID`, and a 32-bit decode answers with
`RES[63:32] = 0`. `FAIL` holds a token exactly on a source or sink failure. `RCNT` is 0 for what `IDLE` answers; of a
busy engine it is `IDX` on a failure and one more otherwise, so it is `N` when a decode is rejected and, from a state
that meets the invariant, at most `N - 1` on a failure and 1 to `N` on `OK`. -/
def Obligations.ResponsesHaveTheFieldsOfTheirStatus : Prop :=
  ∀ (s t : State) (r : Response), step s = .next t → t.responses = s.responses ++ [r] →
    (r.status ≠ .ok → r.res = 0) ∧
    (r.fail.isSome = true ↔ r.status = .sourceFailure ∨ r.status = .sinkFailure) ∧
    (r.status = .sourceFailure → s.phase = .decBusy) ∧ (r.status = .sinkFailure → s.phase = .encBusy) ∧
    (r.status = .illegalCommand → s.phase = .idle) ∧
    (s.phase = .idle → r.rcnt = 0) ∧ (s.phase = .encBusy → r.res = 0) ∧
    (s.phase = .decBusy → s.wid.val = .w32 → r.res.toNat < 2 ^ 32) ∧
    (s.phase = .idle → ∀ q rest k b, s.requests = q :: rest →
      decode q = .ok (.valid32 k b) ∨ decode q = .ok (.valid64 k b) → r.res = 0) ∧
    (r.status = .sourceFailure ∨ r.status = .sinkFailure → r.rcnt = s.idx.val) ∧
    (s.phase ≠ .idle → r.status = .ok ∨ r.status = .invalidEncoding → r.rcnt = s.idx.val + 1) ∧
    (s.phase ≠ .idle → r.status = .invalidEncoding →
      s.phase = .decBusy ∧ r.rcnt.toNat = s.wid.val.maxBytes) ∧
    (s.Inv → r.status = .sourceFailure ∨ r.status = .sinkFailure → r.rcnt.toNat ≤ s.wid.val.maxBytes - 1) ∧
    (s.Inv → s.phase ≠ .idle → r.status = .ok → 1 ≤ r.rcnt.toNat ∧ r.rcnt.toNat ≤ s.wid.val.maxBytes)

/-- The codes of `STATUS` (60_exceptions.md R105). -/
def Obligations.StatusCodesAreThoseOfTheTable : Prop :=
  Status.ok.code = 0 ∧ Status.invalidEncoding.code = 1 ∧ Status.sourceFailure.code = 2 ∧
  Status.sinkFailure.code = 3 ∧ Status.illegalCommand.code = 4

/-! ## The primitive requests -/

/-- `CONT b` answers the continuation bit of its byte in the accepting step, whatever `OPA` and `OPI` hold
(40_primitives.md R61). -/
def Obligations.ContAnswersTheContinuationBit : Prop :=
  ∀ (s : State) (r : Request), s.phase = .idle → r.cmd = 0x0A →
    decode r = .ok (.cont r.opb) ∧
    exec (.cont r.opb) s = .next (s.answeredWith ⟨.ok, if 128 ≤ r.opb.toNat then 1 else 0, 0, none⟩)

/-- `PACKW v` answers the low 7 bits of its operand, plus 0x80 when the operand is 0x80 or more read as an unsigned
number; `PACK32` ignores `OPA[63:32]` (40_primitives.md R62). -/
def Obligations.PackAnswersTheComposedByte : Prop :=
  ∀ (s : State) (r : Request), s.phase = .idle →
    (r.cmd = 0x04 →
      let v : Word32 := r.opa.setWidth 32
      decode r = .ok (.pack32 v) ∧
      exec (.pack32 v) s = .next (s.answeredWith
        ⟨.ok, BitVec.ofNat 64 (v.toNat % 128 + if v.toNat < 128 then 0 else 128), 0, none⟩)) ∧
    (r.cmd = 0x05 →
      decode r = .ok (.pack64 r.opa) ∧
      exec (.pack64 r.opa) s = .next (s.answeredWith
        ⟨.ok, BitVec.ofNat 64 (r.opa.toNat % 128 + if r.opa.toNat < 128 then 0 else 128), 0, none⟩))

/-- `PLACEW acc, j, b` answers `acc | ((b & 0x7F) << 7*j)` at its width when `j <= N - 1`, and `ILLEGAL_COMMAND`
otherwise (40_primitives.md R64). -/
def Obligations.PlaceAnswersTheNewAccumulator : Prop :=
  ∀ (s : State) (r : Request), s.phase = .idle →
    (r.cmd = 0x06 →
      let acc : Word32 := r.opa.setWidth 32
      decode r = .ok (.place32 acc r.opi r.opb) ∧
      exec (.place32 acc r.opi r.opb) s = .next (s.answeredWith
        (if r.opi.toNat ≤ 4 then
          ⟨.ok, (acc ||| ((r.opb &&& 0x7F).setWidth 32 <<< (7 * r.opi.toNat))).setWidth 64, 0, none⟩
        else ⟨.illegalCommand, 0, 0, none⟩))) ∧
    (r.cmd = 0x07 →
      decode r = .ok (.place64 r.opa r.opi r.opb) ∧
      exec (.place64 r.opa r.opi r.opb) s = .next (s.answeredWith
        (if r.opi.toNat ≤ 9 then
          ⟨.ok, r.opa ||| ((r.opb &&& 0x7F).setWidth 64 <<< (7 * r.opi.toNat)), 0, none⟩
        else ⟨.illegalCommand, 0, 0, none⟩)))

/-- `VALIDW k, b` answers `ILLEGAL_COMMAND` for `k = 0` or `k > N`, `INVALID_ENCODING` for `k = N` with a bit of
`MASK` set, and `OK` otherwise (40_primitives.md R67). -/
def Obligations.ValidAnswersTheVerdict : Prop :=
  ∀ (s : State) (r : Request), s.phase = .idle →
    (r.cmd = 0x08 →
      decode r = .ok (.valid32 r.opi r.opb) ∧
      exec (.valid32 r.opi r.opb) s = .next (s.answeredWith
        (if r.opi.toNat = 0 ∨ 5 < r.opi.toNat then ⟨.illegalCommand, 0, 0, none⟩
        else if r.opi.toNat = 5 ∧ r.opb &&& 0xF0 ≠ 0 then ⟨.invalidEncoding, 0, 0, none⟩
        else ⟨.ok, 0, 0, none⟩))) ∧
    (r.cmd = 0x09 →
      decode r = .ok (.valid64 r.opi r.opb) ∧
      exec (.valid64 r.opi r.opb) s = .next (s.answeredWith
        (if r.opi.toNat = 0 ∨ 10 < r.opi.toNat then ⟨.illegalCommand, 0, 0, none⟩
        else if r.opi.toNat = 10 ∧ r.opb &&& 0xFE ≠ 0 then ⟨.invalidEncoding, 0, 0, none⟩
        else ⟨.ok, 0, 0, none⟩)))

/-- The packer's law: the byte's continuation bit is set exactly when the value shifted right by 7 is not 0, its
segment is the value's low 7 bits, and an acknowledged encode step goes on exactly when the byte it wrote has its
continuation bit set (40_primitives.md R63). -/
def Obligations.PackedByteContinuesExactlyWhenMoreRemains : Prop :=
  (∀ (w : Width) (v : BitVec w.bits),
    (cont (pack v) = true ↔ v >>> 7 ≠ 0) ∧ seg (pack v) = v.setWidth 7) ∧
  ∀ (s : State) (rest : List SinkAnswer), s.resetIn = false → s.phase = .encBusy → s.sinkAnswers = .ack :: rest →
    ∃ t b, step s = .next t ∧ t.sink = s.sink ++ [b] ∧ (t.phase = .encBusy ↔ cont b = true)

/-- Placement bit by bit: bit `i` of the result is bit `i` of the accumulator or, for `i` from `7*j` to `7*j + 6`,
bit `i - 7*j` of the byte; bits past the width are discarded, so at the top index only 4 bits (width 32) or 1 bit
(width 64) of the segment reach the accumulator (40_primitives.md R64, R65). -/
def Obligations.PlacementPutsTheSegmentAtItsGroup : Prop :=
  (∀ (w : Width) (acc : BitVec w.bits) (j : Nat) (b : Byte) (i : Nat), i < w.bits →
    (place acc j b).getLsbD i =
      (acc.getLsbD i || (decide (7 * j ≤ i ∧ i < 7 * j + 7) && b.getLsbD (i - 7 * j)))) ∧
  (∀ (acc : Word32) (b : Byte), place acc 4 b = place acc 4 (b &&& 0x0F)) ∧
  (∀ (acc : Word64) (b : Byte), place acc 9 b = place acc 9 (b &&& 0x01))

/-- The validator's boundary: byte 5 of width 32 may be 0x00 to 0x0F, byte 10 of width 64 may be 0x00 or 0x01, and
every byte is valid at every other position (40_primitives.md R66, R68; 30_encoding.md R50). -/
def Obligations.ValidatorChecksOnlyTheLastByteNumber : Prop :=
  (∀ b : Byte, valid .w32 5 b = true ↔ b.toNat ≤ 0x0F) ∧
  (∀ b : Byte, valid .w64 10 b = true ↔ b.toNat ≤ 0x01) ∧
  ∀ (w : Width) (k : Nat) (b : Byte), k ≠ w.maxBytes → valid w k b = true

/-! ## The codec requests, step by step -/

/-- The acceptance of the four codec requests in `IDLE`: `WID`, `IDX` and `REM` or `ACC` are written, the engine
becomes busy, no transfer and no response (41_codec32.md R76, R80; 42_codec64.md R91, R95; accept blocks). Those blocks
say nothing of the response port: that it no longer shows an earlier response is the model's reading of 10_state.md R23
(log entry 6). -/
def Obligations.CodecRequestsAreAcceptedInIdle : Prop :=
  ∀ (s : State) (r : Request), s.phase = .idle →
    (r.cmd = 0x00 →
      let v : Word32 := r.opa.setWidth 32
      decode r = .ok (.enc32 v) ∧
      exec (.enc32 v) s = .next { s with
        phase := .encBusy, wid := ⟨.w32, true⟩, rem := ⟨v.setWidth 64, true⟩, idx := ⟨0, true⟩,
        requests := s.requests.tail, response := none }) ∧
    (r.cmd = 0x01 →
      decode r = .ok (.enc64 r.opa) ∧
      exec (.enc64 r.opa) s = .next { s with
        phase := .encBusy, wid := ⟨.w64, true⟩, rem := ⟨r.opa, true⟩, idx := ⟨0, true⟩,
        requests := s.requests.tail, response := none }) ∧
    (r.cmd = 0x02 →
      decode r = .ok .dec32 ∧
      exec .dec32 s = .next { s with
        phase := .decBusy, wid := ⟨.w32, true⟩, acc := ⟨0, true⟩, idx := ⟨0, true⟩,
        requests := s.requests.tail, response := none }) ∧
    (r.cmd = 0x03 →
      decode r = .ok .dec64 ∧
      exec .dec64 s = .next { s with
        phase := .decBusy, wid := ⟨.w64, true⟩, acc := ⟨0, true⟩, idx := ⟨0, true⟩,
        requests := s.requests.tail, response := none })

/-- One step of an encode of either width: it offers `pack_W(REM)`; a failure ends it with `SINK_FAILURE`, the count
so far and the token unchanged; an acknowledged byte ends it with `OK` when `REM >>> 7` is 0 and goes on otherwise,
with no response on the port (log entry 6) (41_codec32.md R76, 42_codec64.md R91, busy blocks; 20_memory.md R35; 60_exceptions.md R109). -/
def Obligations.EncodeStepWritesOneByte : Prop :=
  ∀ (s : State) (w : Width), s.resetIn = false → s.phase = .encBusy → s.wid.val = w →
    let v : BitVec w.bits := s.rem.val.setWidth w.bits
    (∀ f rest, s.sinkAnswers = .fail f :: rest →
      step s = .next ({ s with sinkAnswers := rest }.endedWith ⟨.sinkFailure, 0, s.idx.val, some f⟩)) ∧
    (∀ rest, s.sinkAnswers = .ack :: rest → v >>> 7 = 0 →
      step s = .next ({ s with sinkAnswers := rest, sink := s.sink ++ [pack v] }.endedWith
        ⟨.ok, 0, s.idx.val + 1, none⟩)) ∧
    (∀ rest, s.sinkAnswers = .ack :: rest → v >>> 7 ≠ 0 →
      step s = .next { s with
        sinkAnswers := rest, sink := s.sink ++ [pack v],
        rem := ⟨(v >>> 7).setWidth 64, true⟩, idx := ⟨s.idx.val + 1, true⟩, response := none })

/-- One step of a decode of either width, with the checks in the order of 60_exceptions.md R112: a failure ends it
with `SOURCE_FAILURE`, the count so far and the token unchanged; then a byte the validator rejects ends it with
`INVALID_ENCODING`; then a set continuation bit goes on, with no response on the port (log entry 6), and a clear one
ends it with `OK` and the new accumulator (41_codec32.md R80, 42_codec64.md R95, busy blocks; 60_exceptions.md R107, R108). -/
def Obligations.DecodeStepReadsOneByte : Prop :=
  ∀ (s : State) (w : Width), s.resetIn = false → s.phase = .decBusy → s.wid.val = w →
    let k : Nibble := s.idx.val + 1
    (∀ f rest, s.source = .fail f :: rest →
      step s = .next ({ s with source := rest }.endedWith ⟨.sourceFailure, 0, s.idx.val, some f⟩)) ∧
    (∀ b rest, s.source = .byte b :: rest →
      let acc : BitVec w.bits := place (s.acc.val.setWidth w.bits) s.idx.val.toNat b
      (k.toNat = w.maxBytes ∧ b &&& w.mask ≠ 0 →
        step s = .next ({ s with source := rest }.endedWith ⟨.invalidEncoding, 0, k, none⟩)) ∧
      (¬(k.toNat = w.maxBytes ∧ b &&& w.mask ≠ 0) → b.getLsbD 7 = true →
        step s = .next { s with
          source := rest, acc := ⟨acc.setWidth 64, true⟩, idx := ⟨k, true⟩, response := none }) ∧
      (¬(k.toNat = w.maxBytes ∧ b &&& w.mask ≠ 0) → b.getLsbD 7 = false →
        step s = .next ({ s with source := rest }.endedWith ⟨.ok, acc.setWidth 64, k, none⟩)))

/-- `WID` is latched from bit 0 of the command word of an accepted codec request (10_state.md R18,
30_encoding.md R51). -/
def Obligations.WidthIsLatchedFromTheCommandWord : Prop :=
  ∀ (s t : State) (r : Request) (i : Instr), s.phase = .idle → decode r = .ok i →
    (startsEncode i = true ∨ startsDecode i = true) → exec i s = .next t →
    t.wid = ⟨if r.w then .w64 else .w32, true⟩

/-- What no acceptance touches: the streams, the reset input, and every register but those the codec requests write;
the primitive requests write none and leave the engine in its phase (10_state.md R17, R19, R20). -/
def Obligations.ExecLeavesEverythingElseUnchanged : Prop :=
  ∀ (i : Instr) (s t : State), exec i s = .next t →
    t.source = s.source ∧ t.sinkAnswers = s.sinkAnswers ∧ t.sink = s.sink ∧ t.resetIn = s.resetIn ∧
    (t.requests = if s.phase = .idle then s.requests.tail else s.requests) ∧
    (startsEncode i = false → t.rem = s.rem) ∧
    (startsDecode i = false → t.acc = s.acc) ∧
    (startsEncode i = false → startsDecode i = false →
      t.wid = s.wid ∧ t.idx = s.idx ∧ t.phase = s.phase ∧
      (s.phase = .idle → ∃ r, t.response = some r ∧ t.responses = s.responses ++ [r])) ∧
    (startsEncode i = true ∨ startsDecode i = true → t.responses = s.responses)

/-- The codecs are the primitives composed: the byte an acknowledged encode step writes is what `PACK` answers for
`REM`; a decode step on a byte ends with `INVALID_ENCODING` exactly when `VALID` answers so for the byte and its byte
number, otherwise goes on exactly when `CONT` answers 1, and its new accumulator is what `PLACE` answers
(40_primitives.md R69). Which step appends, goes on or ends, and with which `IDX` and `RCNT`, is 41_codec32.md R76 and
R80 and 42_codec64.md R91 and R95. That a step which goes on leaves the response port empty is the model's reading of
10_state.md R23 (log entry 6). `p` is any idle state in which the primitives are asked. -/
def Obligations.CodecStepsAreThePrimitivesComposed : Prop :=
  ∀ (s p : State) (w : Width), s.resetIn = false → s.wid.val = w → s.Inv → p.phase = .idle →
    (s.phase = .encBusy → ∀ rest, s.sinkAnswers = .ack :: rest →
      ∃ t q b, step s = .next t ∧ t.sink = s.sink ++ [b] ∧
        exec (packInstr w (s.rem.val.setWidth w.bits)) p = .next q ∧
        q.response = some ⟨.ok, b.setWidth 64, 0, none⟩) ∧
    (s.phase = .decBusy → ∀ b rest, s.source = .byte b :: rest →
      ∃ placed checked continued acc verdict more,
        exec (placeInstr w (s.acc.val.setWidth w.bits) s.idx.val b) p = .next placed ∧
        placed.response = some ⟨.ok, acc, 0, none⟩ ∧
        exec (validInstr w (s.idx.val + 1) b) p = .next checked ∧
        checked.response = some ⟨verdict, 0, 0, none⟩ ∧ verdict ≠ .illegalCommand ∧
        exec (.cont b) p = .next continued ∧ continued.response = some ⟨.ok, more, 0, none⟩ ∧
        step s = .next
          (if verdict = .invalidEncoding then
            { s with source := rest }.endedWith ⟨.invalidEncoding, 0, s.idx.val + 1, none⟩
          else if more = 1 then
            { s with source := rest, acc := ⟨acc, true⟩, idx := ⟨s.idx.val + 1, true⟩, response := none }
          else { s with source := rest }.endedWith ⟨.ok, acc, s.idx.val + 1, none⟩))

/-! ## The wire format -/

/-- The length of an encoded sequence: the least `L` from 1 with `u < 2^(7L)`, equivalently
`max(1, ceil(bit_length(u) / 7))`, and at most `N` (41_codec32.md R71, R74; 42_codec64.md R92). -/
def Obligations.EncodedLengthIsTheLeastThatFits : Prop :=
  ∀ (w : Width) (v : BitVec w.bits),
    let len := (encodeW w v).length
    1 ≤ len ∧ len ≤ w.maxBytes ∧ v.toNat < 2 ^ (7 * len) ∧
    (∀ m, 1 ≤ m → v.toNat < 2 ^ (7 * m) → len ≤ m) ∧
    len = max 1 ((Nat.size v.toNat + 6) / 7)

/-- Zero encodes to the single byte 0x00; every negative value to `N` bytes, the last being `v[31:28]`, 0x08 to 0x0F,
at width 32 and 0x01 at width 64 (41_codec32.md R72, R73; 42_codec64.md R93). -/
def Obligations.ZeroIsShortestAndNegativesAreLongest : Prop :=
  encodeW .w32 0 = [0x00] ∧ encodeW .w64 0 = [0x00] ∧
  (∀ v : Word32, v.getLsbD 31 = true →
    (encodeW .w32 v).length = 5 ∧ (encodeW .w32 v)[4]? = some ((v.extractLsb' 28 4).setWidth 8) ∧
    8 ≤ (v.extractLsb' 28 4).toNat ∧ (v.extractLsb' 28 4).toNat ≤ 15) ∧
  (∀ v : Word64, v.getLsbD 63 = true →
    (encodeW .w64 v).length = 10 ∧ (encodeW .w64 v)[9]? = some 0x01)

/-- Byte number `k` of an encoded sequence carries group `k - 1` of the value, least-significant group first, with
value bits at or above `W` read as 0 (20_memory.md R37). -/
def Obligations.EncodedBytesCarryTheGroupsInOrder : Prop :=
  ∀ (w : Width) (v : BitVec w.bits) (k : Nat) (b : Byte), 1 ≤ k → (encodeW w v)[k - 1]? = some b →
    ∀ i, i < 7 → b.getLsbD i = v.getLsbD (7 * (k - 1) + i)

/-- Every byte of an encoded sequence but its last has the continuation bit set, and its last has it clear; the
sequence has 1 to `N` bytes (30_encoding.md R47, R48). -/
def Obligations.OnlyTheLastEncodedByteHasNoContinuation : Prop :=
  ∀ (w : Width) (v : BitVec w.bits),
    ∃ front last, encodeW w v = front ++ [last] ∧ (∀ b ∈ front, cont b = true) ∧ cont last = false ∧
      front.length + 1 ≤ w.maxBytes

/-- A sequence that ends at its first byte without a continuation bit, has at most `N` bytes and, where it has `N`,
no bit of `MASK` in the last, decodes to the number its 7-bit groups spell, least significant first, and to nothing
else; the bytes after it are not read. Overlong sequences are among them (41_codec32.md R78, R83, R84;
42_codec64.md R94, R99, R100; 30_encoding.md R49). -/
def Obligations.DecodedValueIsWhatTheGroupsSpell : Prop :=
  ∀ (w : Width) (front : List Byte) (last : Byte) (tail : List SourceAnswer),
    (∀ b ∈ front, cont b = true) → cont last = false → front.length + 1 ≤ w.maxBytes →
    (front.length + 1 = w.maxBytes → last &&& w.mask = 0) →
    decodeW w ((front ++ [last]).map SourceAnswer.byte ++ tail) =
      .ok (BitVec.ofNat w.bits ((front ++ [last]).foldr (fun b u => b.toNat % 128 + 128 * u) 0)) (front.length + 1) ∧
    (front ++ [last]).foldr (fun b u => b.toNat % 128 + 128 * u) 0 < 2 ^ w.bits

/-- A decode is rejected exactly when it reads `N - 1` bytes with their continuation bits set and then a byte with a
bit of `MASK` set, and it has then read `N` bytes and no more (30_encoding.md R49, R50; 60_exceptions.md R107). -/
def Obligations.DecodeRejectsExactlyBadLastBytes : Prop :=
  ∀ (w : Width) (source : List SourceAnswer) (k : Nat),
    decodeW w source = .invalidEncoding k ↔
      k = w.maxBytes ∧ ∃ (front : List Byte) (b : Byte) (tail : List SourceAnswer),
        source = front.map SourceAnswer.byte ++ .byte b :: tail ∧ front.length + 1 = w.maxBytes ∧
        (∀ x ∈ front, cont x = true) ∧ b &&& w.mask ≠ 0

/-! ## Whole operations -/

/-- An encode whose writes are all acknowledged takes exactly `1 + length(encode_W(v))` steps: it writes exactly the
bytes of `encode_W(v)` in order, answers `OK` with their number in the last step and nothing before, and leaves the
rest of the machine's streams and requests alone (41_codec32.md R76, R77; 42_codec64.md R91). -/
def Obligations.EncodeWritesExactlyItsSequence : Prop :=
  ∀ (s : State) (w : Width) (v : BitVec w.bits) (r : Request) (rest : List Request) (later : List SinkAnswer),
    s.resetIn = false → s.phase = .idle → s.requests = r :: rest → decode r = .ok (encodeInstr w v) →
    s.sinkAnswers = List.replicate (encodeW w v).length .ack ++ later →
    (∃ t, run (1 + (encodeW w v).length) s = .next t ∧ t.phase = .idle ∧
      t.sink = s.sink ++ encodeW w v ∧ t.sinkAnswers = later ∧ t.source = s.source ∧ t.requests = rest ∧
      t.response = some ⟨.ok, 0, BitVec.ofNat 4 (encodeW w v).length, none⟩ ∧
      t.responses = s.responses ++ [⟨.ok, 0, BitVec.ofNat 4 (encodeW w v).length, none⟩]) ∧
    ∀ m, m < 1 + (encodeW w v).length →
      ∃ u, run m s = .next u ∧ u.responses = s.responses ∧ (m ≠ 0 → u.phase = .encBusy)

/-- An encode whose write number `m + 1` fails has written the first `m` bytes of `encode_W(v)`, which stay written,
and answers `SINK_FAILURE` with `m` and the token unchanged, making no further write (60_exceptions.md R109, R111;
20_memory.md R34, R35, R42). -/
def Obligations.EncodeStopsAtASinkFailure : Prop :=
  ∀ (s : State) (w : Width) (v : BitVec w.bits) (r : Request) (rest : List Request) (m : Nat) (f : HostFailure)
    (later : List SinkAnswer),
    s.resetIn = false → s.phase = .idle → s.requests = r :: rest → decode r = .ok (encodeInstr w v) →
    m < (encodeW w v).length → s.sinkAnswers = List.replicate m .ack ++ .fail f :: later →
    ∃ t, run (2 + m) s = .next t ∧ t.phase = .idle ∧ t.sink = s.sink ++ (encodeW w v).take m ∧
      t.sinkAnswers = later ∧ t.source = s.source ∧ t.requests = rest ∧
      t.responses = s.responses ++ [⟨.sinkFailure, 0, BitVec.ofNat 4 m, some f⟩]

/-- A decode answers what `decode_W` returns on the same source answers: the value and the count, the rejection and
the count, or the failure token and the count before it; and it consumes the answers it read and no more
(41_codec32.md R78, R80, R84, R85; 42_codec64.md R94, R95, R100; 60_exceptions.md R108). -/
def Obligations.DecodeAnswersWhatTheFunctionReturns : Prop :=
  ∀ (s : State) (w : Width) (r : Request) (rest : List Request),
    s.resetIn = false → s.phase = .idle → s.requests = r :: rest → decode r = .ok (decodeInstr w) →
    (∀ v k, decodeW w s.source = .ok v k →
      ∃ t, run (1 + k) s = .next t ∧ t.phase = .idle ∧ t.source = s.source.drop k ∧ t.sink = s.sink ∧
        t.requests = rest ∧ t.responses = s.responses ++ [⟨.ok, v.setWidth 64, BitVec.ofNat 4 k, none⟩]) ∧
    (∀ k, decodeW w s.source = .invalidEncoding k →
      ∃ t, run (1 + k) s = .next t ∧ t.phase = .idle ∧ t.source = s.source.drop k ∧ t.sink = s.sink ∧
        t.requests = rest ∧ t.responses = s.responses ++ [⟨.invalidEncoding, 0, BitVec.ofNat 4 k, none⟩]) ∧
    (∀ f k, decodeW w s.source = .sourceFailure f k →
      ∃ t, run (2 + k) s = .next t ∧ t.phase = .idle ∧ t.source = s.source.drop (k + 1) ∧ t.sink = s.sink ∧
        t.requests = rest ∧ t.responses = s.responses ++ [⟨.sourceFailure, 0, BitVec.ofNat 4 k, some f⟩]) ∧
    (∀ k, decodeW w s.source = .unanswered k →
      ∃ t, run (1 + k) s = .next t ∧ t.phase = .decBusy ∧ t.source = [] ∧ t.responses = s.responses)

/-- Round trip: if the source answers exactly the bytes of `encode_W(v)` in order, a decode of that width responds
`OK` with the value, zero-extended in `RES`, and `RCNT` the sequence's length, and leaves what follows in the source
(41_codec32.md R82, 42_codec64.md R98). -/
def Obligations.DecodeOfAnEncodingIsTheValue : Prop :=
  ∀ (s : State) (w : Width) (v : BitVec w.bits) (r : Request) (rest : List Request) (later : List SourceAnswer),
    s.resetIn = false → s.phase = .idle → s.requests = r :: rest → decode r = .ok (decodeInstr w) →
    s.source = (encodeW w v).map SourceAnswer.byte ++ later →
    ∃ t, run (1 + (encodeW w v).length) s = .next t ∧ t.phase = .idle ∧ t.source = later ∧
      t.responses = s.responses ++ [⟨.ok, v.setWidth 64, BitVec.ofNat 4 (encodeW w v).length, none⟩]

/-- Round trip in the host's signed reading: every integer of the width, encoded from its two's-complement pattern and
decoded, reads back as itself (00_scope.md R11, 41_codec32.md R82, 42_codec64.md R98). -/
def Obligations.SignedValuesRoundTrip : Prop :=
  ∀ (w : Width) (x : Int), -2 ^ (w.bits - 1) ≤ x → x < 2 ^ (w.bits - 1) →
    ∃ v, decodeW w ((encodeW w (BitVec.ofInt w.bits x)).map SourceAnswer.byte) =
        .ok v (encodeW w (BitVec.ofInt w.bits x)).length ∧
      signedReading v = x

/-- A busy engine in a state that meets the invariant, whose host has answered as many transfers as the operation may
still make, delivers the operation's response within `N - IDX` steps (41_codec32.md R74, R81; 42_codec64.md R97;
70_reset_and_hazards.md R136). -/
def Obligations.AnsweredOperationsEndInTime : Prop :=
  ∀ s : State, s.Inv → s.resetIn = false → s.phase ≠ .idle →
    (s.phase = .encBusy → s.wid.val.maxBytes - s.idx.val.toNat ≤ s.sinkAnswers.length) →
    (s.phase = .decBusy → s.wid.val.maxBytes - s.idx.val.toNat ≤ s.source.length) →
    ∃ k t r, 1 ≤ k ∧ k ≤ s.wid.val.maxBytes - s.idx.val.toNat ∧ run k s = .next t ∧ t.phase = .idle ∧
      t.responses = s.responses ++ [r]

/-! ## Invariants and isolation -/

/-- The invariant of 10_state.md R26 holds right after reset. -/
def Obligations.InvariantHoldsAtReset : Prop := State.reset.Inv

/-- Every step keeps the invariant: while encoding, something remains or nothing was emitted, `IDX <= N - 1` and
`REM < 2^(W - 7*IDX)`; while decoding, `IDX <= N - 1` and the accumulator holds only the groups read
(10_state.md R26). -/
def Obligations.StepKeepsTheInvariant : Prop :=
  ∀ s t : State, s.Inv → step s = .next t → t.Inv

/-- Whatever the host does between steps, the invariant holds in every state the machine can be in
(10_state.md R26). -/
def Obligations.EveryReachableStateMeetsTheInvariant : Prop :=
  ∀ s : State, Reachable s → s.Inv

/-- No act of the host writes a byte to the sink or delivers a response, and none but asserting reset moves the engine:
no register, no phase, no response on the port; asserting reset leaves it idle with its registers unwritten
(20_memory.md section 6; 10_state.md R25; 70_reset_and_hazards.md R125). -/
def Obligations.HostActsDoNotMoveTheEngine : Prop :=
  ∀ (a : HostAct) (s : State),
    (a.apply s).sink = s.sink ∧ (a.apply s).responses = s.responses ∧
    (a ≠ .assertReset →
      (a.apply s).phase = s.phase ∧ (a.apply s).wid = s.wid ∧ (a.apply s).rem = s.rem ∧ (a.apply s).acc = s.acc ∧
      (a.apply s).idx = s.idx ∧ (a.apply s).response = s.response) ∧
    (a = .assertReset →
      (a.apply s).phase = .idle ∧ (a.apply s).wid.written = false ∧ (a.apply s).rem.written = false ∧
      (a.apply s).acc.written = false ∧ (a.apply s).idx.written = false ∧ (a.apply s).response = none)

/-- No register carries meaning from one operation to the next: an instruction accepted in `IDLE` does the same,
whatever the registers hold, as in the state with its registers as after reset, up to registers no rule reads
(10_state.md R28, 60_exceptions.md R114). -/
def Obligations.NoOperationDependsOnEarlierOnes : Prop :=
  ∀ (i : Instr) (s : State), s.phase = .idle →
    ∃ t u, exec i s = .next t ∧ exec i s.withoutRegisters = .next u ∧ t.SameLive u ∧ t.obs = u.obs ∧
      t.responses = u.responses

/-- The values of dead registers are never observed: two states that differ only in registers no rule reads in their
phase look the same to the host and step to two such states again. So the values this model stores in unwritten and
left-over registers show nowhere (10_state.md R25, R28; 93_implementation_defined.md U15, U16). -/
def Obligations.DeadRegistersNeverObserved : Prop :=
  ∀ s t : State, s.SameLive t → s.obs = t.obs ∧
    ∃ s' t', step s = .next s' ∧ step t = .next t' ∧ s'.SameLive t'

/-- The block never inspects, compares or makes up a failure token: renaming every token in a state and stepping is
stepping and renaming every token (20_memory.md R36). -/
def Obligations.HostFailureIsOpaque : Prop :=
  ∀ (f : HostFailure → HostFailure) (s t : State), step s = .next t → step (s.rename f) = .next (t.rename f)

/-- Steps of two instances with streams of their own leave each other alone and can be taken in either order, and an
act of the host on one, a reset among them, leaves the other alone (20_memory.md R44, 60_exceptions.md R118). That a
reset is of one instance is the model's choice (log entry 18). -/
def Obligations.InstancesDoNotDisturbEachOther : Prop :=
  ∀ (sys : System) (i j : Nat), sys.exclusive = true → i ≠ j → i < sys.instances.length → j < sys.instances.length →
    (∃ a b c, sys.stepAt i = .next a ∧ sys.stepAt j = .next b ∧ a.stepAt j = .next c ∧ b.stepAt i = .next c ∧
      a.instances[j]? = sys.instances[j]? ∧ b.instances[i]? = sys.instances[i]? ∧
      a.instances.length = sys.instances.length ∧ a.exclusive = true) ∧
    ∀ x : HostAct, ∃ a, sys.actAt i x = .next a ∧ a.instances[j]? = sys.instances[j]? ∧
      a.instances.length = sys.instances.length ∧ a.exclusive = true

/-- A system in which two instances share a source or a sink is refused, in every step and every act
(70_reset_and_hazards.md R129, R130). -/
def Obligations.SharedStreamsAreRefused : Prop :=
  ∀ (sys : System) (i j k : Nat) (a b : Instance), i ≠ j → sys.instances[i]? = some a → sys.instances[j]? = some b →
    a.sourceId = b.sourceId ∨ a.sinkId = b.sinkId →
    sys.stepAt k = .refused .sharedStream ∧ ∀ x : HostAct, sys.actAt k x = .refused .sharedStream
end

