-- ==== Sys2Proof/Laws/Decode.lean ====
section
/-! SUPPORT. The decoder, row by row: what each command word decodes to, and that there is no other. -/

namespace Sys2Proof

variable (a : Word64) (b : Byte) (j : Nibble)

theorem decode_enc32 : decode ⟨0x00, a, b, j⟩ = .ok (.enc32 (a.setWidth 32)) := rfl
theorem decode_enc64 : decode ⟨0x01, a, b, j⟩ = .ok (.enc64 a) := rfl
theorem decode_dec32 : decode ⟨0x02, a, b, j⟩ = .ok .dec32 := rfl
theorem decode_dec64 : decode ⟨0x03, a, b, j⟩ = .ok .dec64 := rfl
theorem decode_pack32 : decode ⟨0x04, a, b, j⟩ = .ok (.pack32 (a.setWidth 32)) := rfl
theorem decode_pack64 : decode ⟨0x05, a, b, j⟩ = .ok (.pack64 a) := rfl
theorem decode_place32 : decode ⟨0x06, a, b, j⟩ = .ok (.place32 (a.setWidth 32) j b) := rfl
theorem decode_place64 : decode ⟨0x07, a, b, j⟩ = .ok (.place64 a j b) := rfl
theorem decode_valid32 : decode ⟨0x08, a, b, j⟩ = .ok (.valid32 j b) := rfl
theorem decode_valid64 : decode ⟨0x09, a, b, j⟩ = .ok (.valid64 j b) := rfl
theorem decode_cont : decode ⟨0x0A, a, b, j⟩ = .ok (.cont b) := rfl

/-- Every other command word is reserved (30_encoding.md R54). -/
theorem decode_reserved {r : Request} (h : 0x0B ≤ r.cmd.toNat) : decode r = .error (.reservedCommand r.cmd) := by
  unfold decode
  split <;> first | omega | rfl

/-- A command word is one of the eleven, or reserved. -/
theorem cmd_cases (c : Byte) :
    c = 0x00 ∨ c = 0x01 ∨ c = 0x02 ∨ c = 0x03 ∨ c = 0x04 ∨ c = 0x05 ∨ c = 0x06 ∨ c = 0x07 ∨ c = 0x08 ∨ c = 0x09 ∨
      c = 0x0A ∨ 0x0B ≤ c.toNat := by
  revert c
  decide

/-- What a request that decodes decodes to, with its command word. -/
theorem decode_ok_cases {r : Request} {i : Instr} (h : decode r = .ok i) :
    (r.cmd = 0x00 ∧ i = .enc32 (r.opa.setWidth 32)) ∨ (r.cmd = 0x01 ∧ i = .enc64 r.opa) ∨
    (r.cmd = 0x02 ∧ i = .dec32) ∨ (r.cmd = 0x03 ∧ i = .dec64) ∨
    (r.cmd = 0x04 ∧ i = .pack32 (r.opa.setWidth 32)) ∨ (r.cmd = 0x05 ∧ i = .pack64 r.opa) ∨
    (r.cmd = 0x06 ∧ i = .place32 (r.opa.setWidth 32) r.opi r.opb) ∨
    (r.cmd = 0x07 ∧ i = .place64 r.opa r.opi r.opb) ∨
    (r.cmd = 0x08 ∧ i = .valid32 r.opi r.opb) ∨ (r.cmd = 0x09 ∧ i = .valid64 r.opi r.opb) ∨
    (r.cmd = 0x0A ∧ i = .cont r.opb) := by
  obtain ⟨c, a, b, j⟩ := r
  rcases cmd_cases c with rfl | rfl | rfl | rfl | rfl | rfl | rfl | rfl | rfl | rfl | rfl | hc
  case inr.inr.inr.inr.inr.inr.inr.inr.inr.inr.inr => rw [decode_reserved (r := ⟨c, a, b, j⟩) hc] at h; cases h
  all_goals
    simp only [decode_enc32, decode_enc64, decode_dec32, decode_dec64, decode_pack32, decode_pack64, decode_place32,
      decode_place64, decode_valid32, decode_valid64, decode_cont, Except.ok.injEq] at h
    simp [← h]

end Sys2Proof
end

