-- ==== Sys2Proof/Laws/State.lean ====
section
/-! SUPPORT. One lemma per field per named update of the state, true by unfolding, so that no later proof unfolds a
record update. -/

namespace Sys2Proof.Machine

/-- Taking an error is delivering a response with `RES = 0`. -/
@[simp] theorem State.raise_eq (s : State) (st : Status) (n : Nibble) (f : Option HostFailure) :
    s.raise st n f = s.respond st 0 n f := rfl

/-- `ILLEGAL_COMMAND` is an error with no count and no token. -/
@[simp] theorem State.illegalCommand_eq (s : State) : s.illegalCommand = s.respond .illegalCommand 0 0 none := rfl

/-- Ending an operation, in the terms of Safety.lean. -/
theorem State.respond_eq_endedWith (s : State) (st : Status) (res : Word64) (n : Nibble) (f : Option HostFailure) :
    s.respond st res n f = s.endedWith ⟨st, res, n, f⟩ := rfl

/-- Answering a request in its accepting step, in the terms of Safety.lean. -/
theorem State.takeRequest_respond (s : State) (st : Status) (res : Word64) (n : Nibble) (f : Option HostFailure) :
    s.takeRequest.respond st res n f = s.answeredWith ⟨st, res, n, f⟩ := rfl

/-! ### Delivering a response -/

@[simp] theorem State.respond_phase (s : State) (st : Status) (res : Word64) (n : Nibble) (f : Option HostFailure) :
    (s.respond st res n f).phase = .idle := rfl
@[simp] theorem State.respond_wid (s : State) (st : Status) (res : Word64) (n : Nibble) (f : Option HostFailure) :
    (s.respond st res n f).wid = s.wid := rfl
@[simp] theorem State.respond_rem (s : State) (st : Status) (res : Word64) (n : Nibble) (f : Option HostFailure) :
    (s.respond st res n f).rem = s.rem := rfl
@[simp] theorem State.respond_acc (s : State) (st : Status) (res : Word64) (n : Nibble) (f : Option HostFailure) :
    (s.respond st res n f).acc = s.acc := rfl
@[simp] theorem State.respond_idx (s : State) (st : Status) (res : Word64) (n : Nibble) (f : Option HostFailure) :
    (s.respond st res n f).idx = s.idx := rfl
@[simp] theorem State.respond_resetIn (s : State) (st : Status) (res : Word64) (n : Nibble) (f : Option HostFailure) :
    (s.respond st res n f).resetIn = s.resetIn := rfl
@[simp] theorem State.respond_response (s : State) (st : Status) (res : Word64) (n : Nibble) (f : Option HostFailure) :
    (s.respond st res n f).response = some ⟨st, res, n, f⟩ := rfl
@[simp] theorem State.respond_requests (s : State) (st : Status) (res : Word64) (n : Nibble) (f : Option HostFailure) :
    (s.respond st res n f).requests = s.requests := rfl
@[simp] theorem State.respond_source (s : State) (st : Status) (res : Word64) (n : Nibble) (f : Option HostFailure) :
    (s.respond st res n f).source = s.source := rfl
@[simp] theorem State.respond_sinkAnswers (s : State) (st : Status) (res : Word64) (n : Nibble) (f : Option HostFailure) :
    (s.respond st res n f).sinkAnswers = s.sinkAnswers := rfl
@[simp] theorem State.respond_sink (s : State) (st : Status) (res : Word64) (n : Nibble) (f : Option HostFailure) :
    (s.respond st res n f).sink = s.sink := rfl
@[simp] theorem State.respond_responses (s : State) (st : Status) (res : Word64) (n : Nibble) (f : Option HostFailure) :
    (s.respond st res n f).responses = s.responses ++ [⟨st, res, n, f⟩] := rfl

/-! ### The response port at the start of a step -/

@[simp] theorem State.clearResponse_phase (s : State) : (s.clearResponse).phase = s.phase := rfl
@[simp] theorem State.clearResponse_wid (s : State) : (s.clearResponse).wid = s.wid := rfl
@[simp] theorem State.clearResponse_rem (s : State) : (s.clearResponse).rem = s.rem := rfl
@[simp] theorem State.clearResponse_acc (s : State) : (s.clearResponse).acc = s.acc := rfl
@[simp] theorem State.clearResponse_idx (s : State) : (s.clearResponse).idx = s.idx := rfl
@[simp] theorem State.clearResponse_resetIn (s : State) : (s.clearResponse).resetIn = s.resetIn := rfl
@[simp] theorem State.clearResponse_response (s : State) : (s.clearResponse).response = none := rfl
@[simp] theorem State.clearResponse_requests (s : State) : (s.clearResponse).requests = s.requests := rfl
@[simp] theorem State.clearResponse_source (s : State) : (s.clearResponse).source = s.source := rfl
@[simp] theorem State.clearResponse_sinkAnswers (s : State) : (s.clearResponse).sinkAnswers = s.sinkAnswers := rfl
@[simp] theorem State.clearResponse_sink (s : State) : (s.clearResponse).sink = s.sink := rfl
@[simp] theorem State.clearResponse_responses (s : State) : (s.clearResponse).responses = s.responses := rfl

/-- The response port is no part of the byte offered to the sink. -/
@[simp] theorem offeredByte_clearResponse (w : Width) (s : State) : offeredByte w s.clearResponse = offeredByte w s :=
  rfl

/-- A response delivered in the step replaces whatever the port showed. -/
@[simp] theorem State.clearResponse_respond (s : State) (st : Status) (res : Word64) (n : Nibble)
    (f : Option HostFailure) : s.clearResponse.respond st res n f = s.respond st res n f := rfl

/-! ### Taking the request off its port -/

@[simp] theorem State.takeRequest_phase (s : State) : (s.takeRequest).phase = s.phase := rfl
@[simp] theorem State.takeRequest_wid (s : State) : (s.takeRequest).wid = s.wid := rfl
@[simp] theorem State.takeRequest_rem (s : State) : (s.takeRequest).rem = s.rem := rfl
@[simp] theorem State.takeRequest_acc (s : State) : (s.takeRequest).acc = s.acc := rfl
@[simp] theorem State.takeRequest_idx (s : State) : (s.takeRequest).idx = s.idx := rfl
@[simp] theorem State.takeRequest_resetIn (s : State) : (s.takeRequest).resetIn = s.resetIn := rfl
@[simp] theorem State.takeRequest_response (s : State) : (s.takeRequest).response = none := rfl
@[simp] theorem State.takeRequest_requests (s : State) : (s.takeRequest).requests = s.requests.tail := rfl
@[simp] theorem State.takeRequest_source (s : State) : (s.takeRequest).source = s.source := rfl
@[simp] theorem State.takeRequest_sinkAnswers (s : State) : (s.takeRequest).sinkAnswers = s.sinkAnswers := rfl
@[simp] theorem State.takeRequest_sink (s : State) : (s.takeRequest).sink = s.sink := rfl
@[simp] theorem State.takeRequest_responses (s : State) : (s.takeRequest).responses = s.responses := rfl

/-! ### The acceptance of an encode -/

@[simp] theorem State.beginEncode_phase (s : State) (w : Width) (v : Word64) :
    (s.beginEncode w v).phase = .encBusy := rfl
@[simp] theorem State.beginEncode_wid (s : State) (w : Width) (v : Word64) :
    (s.beginEncode w v).wid = ⟨w, true⟩ := rfl
@[simp] theorem State.beginEncode_rem (s : State) (w : Width) (v : Word64) :
    (s.beginEncode w v).rem = ⟨v, true⟩ := rfl
@[simp] theorem State.beginEncode_acc (s : State) (w : Width) (v : Word64) : (s.beginEncode w v).acc = s.acc := rfl
@[simp] theorem State.beginEncode_idx (s : State) (w : Width) (v : Word64) :
    (s.beginEncode w v).idx = ⟨0, true⟩ := rfl
@[simp] theorem State.beginEncode_resetIn (s : State) (w : Width) (v : Word64) :
    (s.beginEncode w v).resetIn = s.resetIn := rfl
@[simp] theorem State.beginEncode_response (s : State) (w : Width) (v : Word64) :
    (s.beginEncode w v).response = s.response := rfl
@[simp] theorem State.beginEncode_requests (s : State) (w : Width) (v : Word64) :
    (s.beginEncode w v).requests = s.requests := rfl
@[simp] theorem State.beginEncode_source (s : State) (w : Width) (v : Word64) :
    (s.beginEncode w v).source = s.source := rfl
@[simp] theorem State.beginEncode_sinkAnswers (s : State) (w : Width) (v : Word64) :
    (s.beginEncode w v).sinkAnswers = s.sinkAnswers := rfl
@[simp] theorem State.beginEncode_sink (s : State) (w : Width) (v : Word64) :
    (s.beginEncode w v).sink = s.sink := rfl
@[simp] theorem State.beginEncode_responses (s : State) (w : Width) (v : Word64) :
    (s.beginEncode w v).responses = s.responses := rfl

/-! ### The acceptance of a decode -/

@[simp] theorem State.beginDecode_phase (s : State) (w : Width) : (s.beginDecode w).phase = .decBusy := rfl
@[simp] theorem State.beginDecode_wid (s : State) (w : Width) : (s.beginDecode w).wid = ⟨w, true⟩ := rfl
@[simp] theorem State.beginDecode_rem (s : State) (w : Width) : (s.beginDecode w).rem = s.rem := rfl
@[simp] theorem State.beginDecode_acc (s : State) (w : Width) : (s.beginDecode w).acc = ⟨0, true⟩ := rfl
@[simp] theorem State.beginDecode_idx (s : State) (w : Width) : (s.beginDecode w).idx = ⟨0, true⟩ := rfl
@[simp] theorem State.beginDecode_resetIn (s : State) (w : Width) : (s.beginDecode w).resetIn = s.resetIn := rfl
@[simp] theorem State.beginDecode_response (s : State) (w : Width) : (s.beginDecode w).response = s.response := rfl
@[simp] theorem State.beginDecode_requests (s : State) (w : Width) : (s.beginDecode w).requests = s.requests := rfl
@[simp] theorem State.beginDecode_source (s : State) (w : Width) : (s.beginDecode w).source = s.source := rfl
@[simp] theorem State.beginDecode_sinkAnswers (s : State) (w : Width) :
    (s.beginDecode w).sinkAnswers = s.sinkAnswers := rfl
@[simp] theorem State.beginDecode_sink (s : State) (w : Width) : (s.beginDecode w).sink = s.sink := rfl
@[simp] theorem State.beginDecode_responses (s : State) (w : Width) :
    (s.beginDecode w).responses = s.responses := rfl

/-! ### An encode that goes on -/

@[simp] theorem State.keepEncoding_phase (s : State) (v : Word64) (n : Nibble) :
    (s.keepEncoding v n).phase = s.phase := rfl
@[simp] theorem State.keepEncoding_wid (s : State) (v : Word64) (n : Nibble) :
    (s.keepEncoding v n).wid = s.wid := rfl
@[simp] theorem State.keepEncoding_rem (s : State) (v : Word64) (n : Nibble) :
    (s.keepEncoding v n).rem = ⟨v, true⟩ := rfl
@[simp] theorem State.keepEncoding_acc (s : State) (v : Word64) (n : Nibble) :
    (s.keepEncoding v n).acc = s.acc := rfl
@[simp] theorem State.keepEncoding_idx (s : State) (v : Word64) (n : Nibble) :
    (s.keepEncoding v n).idx = ⟨n, true⟩ := rfl
@[simp] theorem State.keepEncoding_resetIn (s : State) (v : Word64) (n : Nibble) :
    (s.keepEncoding v n).resetIn = s.resetIn := rfl
@[simp] theorem State.keepEncoding_response (s : State) (v : Word64) (n : Nibble) :
    (s.keepEncoding v n).response = s.response := rfl
@[simp] theorem State.keepEncoding_requests (s : State) (v : Word64) (n : Nibble) :
    (s.keepEncoding v n).requests = s.requests := rfl
@[simp] theorem State.keepEncoding_source (s : State) (v : Word64) (n : Nibble) :
    (s.keepEncoding v n).source = s.source := rfl
@[simp] theorem State.keepEncoding_sinkAnswers (s : State) (v : Word64) (n : Nibble) :
    (s.keepEncoding v n).sinkAnswers = s.sinkAnswers := rfl
@[simp] theorem State.keepEncoding_sink (s : State) (v : Word64) (n : Nibble) :
    (s.keepEncoding v n).sink = s.sink := rfl
@[simp] theorem State.keepEncoding_responses (s : State) (v : Word64) (n : Nibble) :
    (s.keepEncoding v n).responses = s.responses := rfl

/-! ### A decode that goes on -/

@[simp] theorem State.keepDecoding_phase (s : State) (v : Word64) (n : Nibble) :
    (s.keepDecoding v n).phase = s.phase := rfl
@[simp] theorem State.keepDecoding_wid (s : State) (v : Word64) (n : Nibble) :
    (s.keepDecoding v n).wid = s.wid := rfl
@[simp] theorem State.keepDecoding_rem (s : State) (v : Word64) (n : Nibble) :
    (s.keepDecoding v n).rem = s.rem := rfl
@[simp] theorem State.keepDecoding_acc (s : State) (v : Word64) (n : Nibble) :
    (s.keepDecoding v n).acc = ⟨v, true⟩ := rfl
@[simp] theorem State.keepDecoding_idx (s : State) (v : Word64) (n : Nibble) :
    (s.keepDecoding v n).idx = ⟨n, true⟩ := rfl
@[simp] theorem State.keepDecoding_resetIn (s : State) (v : Word64) (n : Nibble) :
    (s.keepDecoding v n).resetIn = s.resetIn := rfl
@[simp] theorem State.keepDecoding_response (s : State) (v : Word64) (n : Nibble) :
    (s.keepDecoding v n).response = s.response := rfl
@[simp] theorem State.keepDecoding_requests (s : State) (v : Word64) (n : Nibble) :
    (s.keepDecoding v n).requests = s.requests := rfl
@[simp] theorem State.keepDecoding_source (s : State) (v : Word64) (n : Nibble) :
    (s.keepDecoding v n).source = s.source := rfl
@[simp] theorem State.keepDecoding_sinkAnswers (s : State) (v : Word64) (n : Nibble) :
    (s.keepDecoding v n).sinkAnswers = s.sinkAnswers := rfl
@[simp] theorem State.keepDecoding_sink (s : State) (v : Word64) (n : Nibble) :
    (s.keepDecoding v n).sink = s.sink := rfl
@[simp] theorem State.keepDecoding_responses (s : State) (v : Word64) (n : Nibble) :
    (s.keepDecoding v n).responses = s.responses := rfl

/-! ### Reset -/

@[simp] theorem State.applyReset_phase (s : State) : (s.applyReset).phase = .idle := rfl
@[simp] theorem State.applyReset_wid (s : State) : (s.applyReset).wid = ⟨.w32, false⟩ := rfl
@[simp] theorem State.applyReset_rem (s : State) : (s.applyReset).rem = ⟨0, false⟩ := rfl
@[simp] theorem State.applyReset_acc (s : State) : (s.applyReset).acc = ⟨0, false⟩ := rfl
@[simp] theorem State.applyReset_idx (s : State) : (s.applyReset).idx = ⟨0, false⟩ := rfl
@[simp] theorem State.applyReset_resetIn (s : State) : (s.applyReset).resetIn = s.resetIn := rfl
@[simp] theorem State.applyReset_response (s : State) : (s.applyReset).response = none := rfl
@[simp] theorem State.applyReset_requests (s : State) : (s.applyReset).requests = s.requests := rfl
@[simp] theorem State.applyReset_source (s : State) : (s.applyReset).source = s.source := rfl
@[simp] theorem State.applyReset_sinkAnswers (s : State) : (s.applyReset).sinkAnswers = s.sinkAnswers := rfl
@[simp] theorem State.applyReset_sink (s : State) : (s.applyReset).sink = s.sink := rfl
@[simp] theorem State.applyReset_responses (s : State) : (s.applyReset).responses = s.responses := rfl

/-! ### Placing a request -/

@[simp] theorem State.placeRequest_phase (s : State) (r : Request) : (s.placeRequest r).phase = .idle := rfl
@[simp] theorem State.placeRequest_wid (s : State) (r : Request) : (s.placeRequest r).wid = s.wid := rfl
@[simp] theorem State.placeRequest_rem (s : State) (r : Request) : (s.placeRequest r).rem = s.rem := rfl
@[simp] theorem State.placeRequest_acc (s : State) (r : Request) : (s.placeRequest r).acc = s.acc := rfl
@[simp] theorem State.placeRequest_idx (s : State) (r : Request) : (s.placeRequest r).idx = s.idx := rfl
@[simp] theorem State.placeRequest_resetIn (s : State) (r : Request) : (s.placeRequest r).resetIn = false := rfl
@[simp] theorem State.placeRequest_response (s : State) (r : Request) :
    (s.placeRequest r).response = s.response := rfl
@[simp] theorem State.placeRequest_requests (s : State) (r : Request) :
    (s.placeRequest r).requests = r :: s.requests := rfl
@[simp] theorem State.placeRequest_source (s : State) (r : Request) : (s.placeRequest r).source = s.source := rfl
@[simp] theorem State.placeRequest_sinkAnswers (s : State) (r : Request) :
    (s.placeRequest r).sinkAnswers = s.sinkAnswers := rfl
@[simp] theorem State.placeRequest_sink (s : State) (r : Request) : (s.placeRequest r).sink = s.sink := rfl
@[simp] theorem State.placeRequest_responses (s : State) (r : Request) :
    (s.placeRequest r).responses = s.responses := rfl

end Sys2Proof.Machine
end

