-- ==== Sys2Proof/Laws/Ops.lean ====
section
/-! SUPPORT. What each shared operation can do, said once: acceptance, the two handshakes, the busy steps, and the
step of the machine. -/

namespace Sys2Proof.Machine

/-! ### Acceptance -/

/-- In `IDLE` a request is accepted. -/
theorem accept_idle {s : State} (h : s.phase = .idle) (op : State → State) :
    accept s op = .next (op s.takeRequest) := by
  simp [accept, h]

/-- A busy engine holds a request. -/
theorem accept_busy {s : State} (h : s.phase ≠ .idle) (op : State → State) : accept s op = .next s := by
  cases hp : s.phase <;> simp_all [accept]

/-- What an accepted instruction does to the state it is accepted in. -/
def effect : Instr → State → State
  | .enc32 v => fun s => s.beginEncode .w32 (toField v)
  | .enc64 v => fun s => s.beginEncode .w64 (toField v)
  | .dec32 => fun s => s.beginDecode .w32
  | .dec64 => fun s => s.beginDecode .w64
  | .pack32 v => packEffect v
  | .pack64 v => packEffect v
  | .place32 acc j b => placeEffect .w32 acc j b
  | .place64 acc j b => placeEffect .w64 acc j b
  | .valid32 k b => validEffect .w32 k b
  | .valid64 k b => validEffect .w64 k b
  | .cont b => fun s => s.respond .ok (toField (BitVec.ofBool (cont b))) 0 none

/-- Every meaning is an acceptance. -/
theorem exec_eq_accept (i : Instr) (s : State) : exec i s = accept s (effect i) := by
  cases i <;> rfl

/-- What an instruction does in `IDLE`. -/
theorem exec_idle {s : State} (h : s.phase = .idle) (i : Instr) : exec i s = .next (effect i s.takeRequest) := by
  rw [exec_eq_accept, accept_idle h]

/-- What an instruction does while the engine is busy. -/
theorem exec_busy {s : State} (h : s.phase ≠ .idle) (i : Instr) : exec i s = .next s := by
  rw [exec_eq_accept, accept_busy h]

/-- What an accepted request does: the effect of its instruction, or `ILLEGAL_COMMAND` for a reserved word. -/
def requestEffect (r : Request) : State → State :=
  match decode r with
  | .ok i => effect i
  | .error _ => State.illegalCommand

/-- Every request is accepted alike. -/
theorem acceptRequest_eq (r : Request) (s : State) : acceptRequest r s = accept s (requestEffect r) := by
  unfold acceptRequest requestEffect
  cases decode r with
  | ok i => exact exec_eq_accept i s
  | error e => rfl

/-- The effect of an instruction that responds in its accepting step is a response with no transfer. -/
theorem effect_responds (i : Instr) (he : startsEncode i = false) (hd : startsDecode i = false) (s : State) :
    ∃ st res, effect i s = s.respond st res 0 none ∧ (st ≠ .ok → res = 0) ∧
      (st = .ok ∨ st = .invalidEncoding ∨ st = .illegalCommand) := by
  cases i <;> simp_all [startsEncode, startsDecode, effect, packEffect, placeEffect, validEffect] <;>
    (repeat' split) <;> exact ⟨_, _, rfl, by simp, by simp⟩

/-! ### The handshakes -/

/-- A read takes the host's next answer; without one there is none. -/
theorem readByte_eq (s : State) :
    (s.source = [] ∧ readByte s = none) ∨
    ∃ a rest, s.source = a :: rest ∧ readByte s = some (a, { s with source := rest }) := by
  cases h : s.source <;> simp [readByte, h]

/-- A write takes the host's next answer and, when it is `ack`, appends the byte to the sink. -/
theorem writeByte_eq (b : Byte) (s : State) :
    (s.sinkAnswers = [] ∧ writeByte b s = none) ∨
    (∃ f rest, s.sinkAnswers = .fail f :: rest ∧ writeByte b s = some (.fail f, { s with sinkAnswers := rest })) ∨
    ∃ rest, s.sinkAnswers = .ack :: rest ∧
      writeByte b s = some (.ack, { s with sinkAnswers := rest, sink := s.sink ++ [b] }) := by
  cases h : s.sinkAnswers with
  | nil => simp [writeByte, h]
  | cons a rest => cases a <;> simp [writeByte, h]

/-! ### The busy steps -/

/-- With no answer of the sink, an encode waits. -/
theorem encodeStep_wait {w : Width} {s : State} (h : s.sinkAnswers = []) : encodeStep w s = s := by
  simp [encodeStep, writeByte, h]

/-- A failure of the sink ends an encode. -/
theorem encodeStep_fail {w : Width} {s : State} {f : HostFailure} {rest : List SinkAnswer}
    (h : s.sinkAnswers = .fail f :: rest) :
    encodeStep w s = ({ s with sinkAnswers := rest }).respond .sinkFailure 0 s.idx.val (some f) := by
  simp [encodeStep, writeByte, h]

/-- An acknowledged byte after which nothing remains ends an encode. -/
theorem encodeStep_last {w : Width} {s : State} {rest : List SinkAnswer} (h : s.sinkAnswers = .ack :: rest)
    (hr : fromField w s.rem.val >>> 7 = 0) :
    encodeStep w s = ({ s with sinkAnswers := rest, sink := s.sink ++ [offeredByte w s] }).respond
      .ok 0 (s.idx.val + 1) none := by
  simp [encodeStep, writeByte, h, hr]

/-- An acknowledged byte after which something remains. -/
theorem encodeStep_more {w : Width} {s : State} {rest : List SinkAnswer} (h : s.sinkAnswers = .ack :: rest)
    (hr : fromField w s.rem.val >>> 7 ≠ 0) :
    encodeStep w s = ({ s with sinkAnswers := rest, sink := s.sink ++ [offeredByte w s] }).keepEncoding
      (toField (fromField w s.rem.val >>> 7)) (s.idx.val + 1) := by
  simp only [encodeStep, writeByte, h, hr, if_false]

/-- With no answer of the source, a decode waits. -/
theorem decodeStep_wait {w : Width} {s : State} (h : s.source = []) : decodeStep w s = s := by
  simp [decodeStep, readByte, h]

/-- A failure of the source ends a decode. -/
theorem decodeStep_fail {w : Width} {s : State} {f : HostFailure} {rest : List SourceAnswer}
    (h : s.source = .fail f :: rest) :
    decodeStep w s = ({ s with source := rest }).respond .sourceFailure 0 s.idx.val (some f) := by
  simp [decodeStep, readByte, h]

/-- A byte the validator rejects ends a decode. -/
theorem decodeStep_invalid {w : Width} {s : State} {b : Byte} {rest : List SourceAnswer}
    (h : s.source = .byte b :: rest) (hv : valid w (s.idx.val + 1).toNat b = false) :
    decodeStep w s = ({ s with source := rest }).respond .invalidEncoding 0 (s.idx.val + 1) none := by
  simp only [decodeStep, readByte, h, hv, State.raise_eq, if_true]

/-- A valid byte with its continuation bit set. -/
theorem decodeStep_more {w : Width} {s : State} {b : Byte} {rest : List SourceAnswer}
    (h : s.source = .byte b :: rest) (hv : valid w (s.idx.val + 1).toNat b = true) (hc : cont b = true) :
    decodeStep w s = ({ s with source := rest }).keepDecoding
      (toField (place (fromField w s.acc.val) s.idx.val.toNat b)) (s.idx.val + 1) := by
  simp only [decodeStep, readByte, h, hv, hc, Bool.true_eq_false, if_false, if_true]

/-- A valid byte with its continuation bit clear ends a decode. -/
theorem decodeStep_last {w : Width} {s : State} {b : Byte} {rest : List SourceAnswer}
    (h : s.source = .byte b :: rest) (hv : valid w (s.idx.val + 1).toNat b = true) (hc : cont b = false) :
    decodeStep w s = ({ s with source := rest }).respond .ok
      (toField (place (fromField w s.acc.val) s.idx.val.toNat b)) (s.idx.val + 1) none := by
  simp only [decodeStep, readByte, h, hv, hc, Bool.true_eq_false, Bool.false_eq_true, if_false]

/-- Everything a step of an encode can do. -/
theorem encodeStep_cases (w : Width) (s : State) :
    (s.sinkAnswers = [] ∧ encodeStep w s = s) ∨
    (∃ f rest, s.sinkAnswers = .fail f :: rest ∧
      encodeStep w s = ({ s with sinkAnswers := rest }).respond .sinkFailure 0 s.idx.val (some f)) ∨
    (∃ rest, s.sinkAnswers = .ack :: rest ∧ fromField w s.rem.val >>> 7 = 0 ∧
      encodeStep w s = ({ s with sinkAnswers := rest, sink := s.sink ++ [offeredByte w s] }).respond
        .ok 0 (s.idx.val + 1) none) ∨
    ∃ rest, s.sinkAnswers = .ack :: rest ∧ fromField w s.rem.val >>> 7 ≠ 0 ∧
      encodeStep w s = ({ s with sinkAnswers := rest, sink := s.sink ++ [offeredByte w s] }).keepEncoding
        (toField (fromField w s.rem.val >>> 7)) (s.idx.val + 1) := by
  rcases writeByte_eq 0 s with ⟨h, -⟩ | ⟨f, rest, h, -⟩ | ⟨rest, h, -⟩
  · exact .inl ⟨h, encodeStep_wait h⟩
  · exact .inr (.inl ⟨f, rest, h, encodeStep_fail h⟩)
  · by_cases hr : fromField w s.rem.val >>> 7 = 0
    · exact .inr (.inr (.inl ⟨rest, h, hr, encodeStep_last h hr⟩))
    · exact .inr (.inr (.inr ⟨rest, h, hr, encodeStep_more h hr⟩))

/-- Everything a step of a decode can do. -/
theorem decodeStep_cases (w : Width) (s : State) :
    (s.source = [] ∧ decodeStep w s = s) ∨
    (∃ f rest, s.source = .fail f :: rest ∧
      decodeStep w s = ({ s with source := rest }).respond .sourceFailure 0 s.idx.val (some f)) ∨
    (∃ b rest, s.source = .byte b :: rest ∧ valid w (s.idx.val + 1).toNat b = false ∧
      decodeStep w s = ({ s with source := rest }).respond .invalidEncoding 0 (s.idx.val + 1) none) ∨
    (∃ b rest, s.source = .byte b :: rest ∧ valid w (s.idx.val + 1).toNat b = true ∧ cont b = true ∧
      decodeStep w s = ({ s with source := rest }).keepDecoding
        (toField (place (fromField w s.acc.val) s.idx.val.toNat b)) (s.idx.val + 1)) ∨
    ∃ b rest, s.source = .byte b :: rest ∧ valid w (s.idx.val + 1).toNat b = true ∧ cont b = false ∧
      decodeStep w s = ({ s with source := rest }).respond .ok
        (toField (place (fromField w s.acc.val) s.idx.val.toNat b)) (s.idx.val + 1) none := by
  rcases readByte_eq s with ⟨h, -⟩ | ⟨a, rest, h, -⟩
  · exact .inl ⟨h, decodeStep_wait h⟩
  · cases a with
    | fail f => exact .inr (.inl ⟨f, rest, h, decodeStep_fail h⟩)
    | byte b =>
      cases hv : valid w (s.idx.val + 1).toNat b
      · exact .inr (.inr (.inl ⟨b, rest, h, hv, decodeStep_invalid h hv⟩))
      · cases hc : cont b
        · exact .inr (.inr (.inr (.inr ⟨b, rest, h, hv, hc, decodeStep_last h hv hc⟩)))
        · exact .inr (.inr (.inr (.inl ⟨b, rest, h, hv, hc, decodeStep_more h hv hc⟩)))

/-! ### The step of the machine -/

/-- While reset is asserted, a step applies it. -/
theorem step_reset {s : State} (h : s.resetIn = true) : step s = .next s.applyReset := by
  simp [step, engineStep, h]

/-- In `IDLE` with no request, a step waits. -/
theorem step_idle_nil {s : State} (h : s.resetIn = false) (hp : s.phase = .idle) (hr : s.requests = []) :
    step s = .next s.clearResponse := by
  simp [step, engineStep, h, hp, hr]

/-- In `IDLE` with a request on the port, a step accepts it. -/
theorem step_idle_cons {s : State} {r : Request} {rest : List Request} (h : s.resetIn = false) (hp : s.phase = .idle)
    (hr : s.requests = r :: rest) : step s = .next (requestEffect r s.takeRequest) := by
  simp [step, engineStep, h, hp, hr, acceptRequest_eq, accept_idle]

/-- While encoding, a step is a step of the encode. -/
theorem step_encoding {s : State} (h : s.resetIn = false) (hp : s.phase = .encBusy) :
    step s = .next (encodeStep s.wid.val s.clearResponse) := by
  simp [step, engineStep, h, hp]

/-- While decoding, a step is a step of the decode. -/
theorem step_decoding {s : State} (h : s.resetIn = false) (hp : s.phase = .decBusy) :
    step s = .next (decodeStep s.wid.val s.clearResponse) := by
  simp [step, engineStep, h, hp]

/-! The busy steps once more, each case with the step that makes it. -/

/-- While encoding with no answer of the sink, a step waits. -/
theorem step_encoding_wait {s : State} (h : s.resetIn = false) (hp : s.phase = .encBusy) (ha : s.sinkAnswers = []) :
    step s = .next s.clearResponse := by
  rw [step_encoding h hp, encodeStep_wait (s := s.clearResponse) ha]

/-- A step in which the sink fails. -/
theorem step_encoding_fail {s : State} {f : HostFailure} {rest : List SinkAnswer} (h : s.resetIn = false)
    (hp : s.phase = .encBusy) (ha : s.sinkAnswers = .fail f :: rest) :
    step s = .next (({ s with sinkAnswers := rest }).respond .sinkFailure 0 s.idx.val (some f)) := by
  rw [step_encoding h hp, encodeStep_fail (s := s.clearResponse) ha]
  rfl

/-- A step that writes the last byte. -/
theorem step_encoding_last {s : State} {rest : List SinkAnswer} (h : s.resetIn = false) (hp : s.phase = .encBusy)
    (ha : s.sinkAnswers = .ack :: rest) (hr : fromField s.wid.val s.rem.val >>> 7 = 0) :
    step s = .next (({ s with sinkAnswers := rest, sink := s.sink ++ [offeredByte s.wid.val s] }).respond
      .ok 0 (s.idx.val + 1) none) := by
  rw [step_encoding h hp, encodeStep_last (s := s.clearResponse) ha hr]
  rfl

/-- A step that writes a byte after which something remains. -/
theorem step_encoding_more {s : State} {rest : List SinkAnswer} (h : s.resetIn = false) (hp : s.phase = .encBusy)
    (ha : s.sinkAnswers = .ack :: rest) (hr : fromField s.wid.val s.rem.val >>> 7 ≠ 0) :
    step s = .next (({ s with
      sinkAnswers := rest, sink := s.sink ++ [offeredByte s.wid.val s], response := none }).keepEncoding
        (toField (fromField s.wid.val s.rem.val >>> 7)) (s.idx.val + 1)) := by
  rw [step_encoding h hp, encodeStep_more (s := s.clearResponse) ha hr]
  rfl

/-- While decoding with no answer of the source, a step waits. -/
theorem step_decoding_wait {s : State} (h : s.resetIn = false) (hp : s.phase = .decBusy) (hs : s.source = []) :
    step s = .next s.clearResponse := by
  rw [step_decoding h hp, decodeStep_wait (s := s.clearResponse) hs]

/-- A step in which the source fails. -/
theorem step_decoding_fail {s : State} {f : HostFailure} {rest : List SourceAnswer} (h : s.resetIn = false)
    (hp : s.phase = .decBusy) (hs : s.source = .fail f :: rest) :
    step s = .next (({ s with source := rest }).respond .sourceFailure 0 s.idx.val (some f)) := by
  rw [step_decoding h hp, decodeStep_fail (s := s.clearResponse) hs]
  rfl

/-- A step whose byte the validator rejects. -/
theorem step_decoding_invalid {s : State} {b : Byte} {rest : List SourceAnswer} (h : s.resetIn = false)
    (hp : s.phase = .decBusy) (hs : s.source = .byte b :: rest)
    (hv : valid s.wid.val (s.idx.val + 1).toNat b = false) :
    step s = .next (({ s with source := rest }).respond .invalidEncoding 0 (s.idx.val + 1) none) := by
  rw [step_decoding h hp, decodeStep_invalid (s := s.clearResponse) hs hv]
  rfl

/-- A step that reads a valid byte with its continuation bit set. -/
theorem step_decoding_more {s : State} {b : Byte} {rest : List SourceAnswer} (h : s.resetIn = false)
    (hp : s.phase = .decBusy) (hs : s.source = .byte b :: rest)
    (hv : valid s.wid.val (s.idx.val + 1).toNat b = true) (hc : cont b = true) :
    step s = .next (({ s with source := rest, response := none }).keepDecoding
      (toField (place (fromField s.wid.val s.acc.val) s.idx.val.toNat b)) (s.idx.val + 1)) := by
  rw [step_decoding h hp, decodeStep_more (s := s.clearResponse) hs hv hc]
  rfl

/-- A step that reads a valid byte with its continuation bit clear. -/
theorem step_decoding_last {s : State} {b : Byte} {rest : List SourceAnswer} (h : s.resetIn = false)
    (hp : s.phase = .decBusy) (hs : s.source = .byte b :: rest)
    (hv : valid s.wid.val (s.idx.val + 1).toNat b = true) (hc : cont b = false) :
    step s = .next (({ s with source := rest }).respond .ok
      (toField (place (fromField s.wid.val s.acc.val) s.idx.val.toNat b)) (s.idx.val + 1) none) := by
  rw [step_decoding h hp, decodeStep_last (s := s.clearResponse) hs hv hc]
  rfl

/-- Everything a step of an encoding engine can do. -/
theorem step_encoding_cases {s : State} (h : s.resetIn = false) (hp : s.phase = .encBusy) :
    (s.sinkAnswers = [] ∧ step s = .next s.clearResponse) ∨
    (∃ f rest, s.sinkAnswers = .fail f :: rest ∧
      step s = .next (({ s with sinkAnswers := rest }).respond .sinkFailure 0 s.idx.val (some f))) ∨
    (∃ rest, s.sinkAnswers = .ack :: rest ∧ fromField s.wid.val s.rem.val >>> 7 = 0 ∧
      step s = .next (({ s with sinkAnswers := rest, sink := s.sink ++ [offeredByte s.wid.val s] }).respond
        .ok 0 (s.idx.val + 1) none)) ∨
    ∃ rest, s.sinkAnswers = .ack :: rest ∧ fromField s.wid.val s.rem.val >>> 7 ≠ 0 ∧
      step s = .next (({ s with
        sinkAnswers := rest, sink := s.sink ++ [offeredByte s.wid.val s], response := none }).keepEncoding
          (toField (fromField s.wid.val s.rem.val >>> 7)) (s.idx.val + 1)) := by
  rcases encodeStep_cases s.wid.val s with ⟨ha, -⟩ | ⟨f, rest, ha, -⟩ | ⟨rest, ha, hr, -⟩ | ⟨rest, ha, hr, -⟩
  · exact .inl ⟨ha, step_encoding_wait h hp ha⟩
  · exact .inr (.inl ⟨f, rest, ha, step_encoding_fail h hp ha⟩)
  · exact .inr (.inr (.inl ⟨rest, ha, hr, step_encoding_last h hp ha hr⟩))
  · exact .inr (.inr (.inr ⟨rest, ha, hr, step_encoding_more h hp ha hr⟩))

/-- Everything a step of a decoding engine can do. -/
theorem step_decoding_cases {s : State} (h : s.resetIn = false) (hp : s.phase = .decBusy) :
    (s.source = [] ∧ step s = .next s.clearResponse) ∨
    (∃ f rest, s.source = .fail f :: rest ∧
      step s = .next (({ s with source := rest }).respond .sourceFailure 0 s.idx.val (some f))) ∨
    (∃ b rest, s.source = .byte b :: rest ∧ valid s.wid.val (s.idx.val + 1).toNat b = false ∧
      step s = .next (({ s with source := rest }).respond .invalidEncoding 0 (s.idx.val + 1) none)) ∨
    (∃ b rest, s.source = .byte b :: rest ∧ valid s.wid.val (s.idx.val + 1).toNat b = true ∧ cont b = true ∧
      step s = .next (({ s with source := rest, response := none }).keepDecoding
        (toField (place (fromField s.wid.val s.acc.val) s.idx.val.toNat b)) (s.idx.val + 1))) ∨
    ∃ b rest, s.source = .byte b :: rest ∧ valid s.wid.val (s.idx.val + 1).toNat b = true ∧ cont b = false ∧
      step s = .next (({ s with source := rest }).respond .ok
        (toField (place (fromField s.wid.val s.acc.val) s.idx.val.toNat b)) (s.idx.val + 1) none) := by
  rcases decodeStep_cases s.wid.val s with ⟨hs, -⟩ | ⟨f, rest, hs, -⟩ | ⟨b, rest, hs, hv, -⟩ |
    ⟨b, rest, hs, hv, hc, -⟩ | ⟨b, rest, hs, hv, hc, -⟩
  · exact .inl ⟨hs, step_decoding_wait h hp hs⟩
  · exact .inr (.inl ⟨f, rest, hs, step_decoding_fail h hp hs⟩)
  · exact .inr (.inr (.inl ⟨b, rest, hs, hv, step_decoding_invalid h hp hs hv⟩))
  · exact .inr (.inr (.inr (.inl ⟨b, rest, hs, hv, hc, step_decoding_more h hp hs hv hc⟩)))
  · exact .inr (.inr (.inr (.inr ⟨b, rest, hs, hv, hc, step_decoding_last h hp hs hv hc⟩)))

/-- Everything a step can do. -/
theorem step_cases (s : State) :
    (s.resetIn = true ∧ step s = .next s.applyReset) ∨
    (s.resetIn = false ∧ s.phase = .idle ∧ s.requests = [] ∧ step s = .next s.clearResponse) ∨
    (s.resetIn = false ∧ s.phase = .idle ∧ ∃ r rest, s.requests = r :: rest ∧
      step s = .next (requestEffect r s.takeRequest)) ∨
    (s.resetIn = false ∧ s.phase = .encBusy ∧ step s = .next (encodeStep s.wid.val s.clearResponse)) ∨
    (s.resetIn = false ∧ s.phase = .decBusy ∧ step s = .next (decodeStep s.wid.val s.clearResponse)) := by
  cases h : s.resetIn
  · cases hp : s.phase
    · cases hr : s.requests with
      | nil => exact .inr (.inl ⟨rfl, rfl, rfl, step_idle_nil h hp hr⟩)
      | cons r rest => exact .inr (.inr (.inl ⟨rfl, rfl, r, rest, rfl, step_idle_cons h hp hr⟩))
    · exact .inr (.inr (.inr (.inl ⟨rfl, rfl, step_encoding h hp⟩)))
    · exact .inr (.inr (.inr (.inr ⟨rfl, rfl, step_decoding h hp⟩)))
  · exact .inl ⟨rfl, step_reset h⟩

end Sys2Proof.Machine
end

