-- ==== Sys2Proof/Laws/PerInstr.lean ====
section
/-! SUPPORT. One statement about every instruction as syntax, per constructor: its encoding is canonical. -/

namespace Sys2Proof.Laws.CanonicalEncoding

/-- The encoding's `RSV` is 0 (30_encoding.md R51) and it sets no field its operation ignores (R55, R57). -/
def Statement (i : Instr) : Prop := (encode i).rsv = 0 ∧ (encode i).canonical = encode i

/-- A 32-bit operand zero-extended into `OPA` has nothing to clear in `OPA[63:32]`. -/
theorem low_word (v : Word32) : v.setWidth 64 &&& 0xFFFFFFFF#64 = v.setWidth 64 := by
  have mask : 0xFFFFFFFF = 2 ^ 32 - 1 := by norm_num
  apply BitVec.eq_of_toNat_eq
  rw [BitVec.toNat_and, BitVec.toNat_setWidth, show (0xFFFFFFFF#64).toNat = 0xFFFFFFFF from rfl, mask,
    Nat.and_two_pow_sub_one_eq_mod]
  omega

theorem enc32 (v : Word32) : Statement (.enc32 v) := by
  simp [Statement, encode, Request.rsv, Request.canonical, Request.readOpa, Request.readOpb, Request.readOpi,
    Request.fn, Request.w, low_word]

theorem enc64 (v : Word64) : Statement (.enc64 v) := by
  simp [Statement, encode, Request.rsv, Request.canonical, Request.readOpa, Request.readOpb, Request.readOpi,
    Request.fn, Request.w]

theorem dec32 : Statement .dec32 := by
  simp [Statement, encode, Request.rsv, Request.canonical, Request.readOpa, Request.readOpb, Request.readOpi,
    Request.fn, Request.w]

theorem dec64 : Statement .dec64 := by
  simp [Statement, encode, Request.rsv, Request.canonical, Request.readOpa, Request.readOpb, Request.readOpi,
    Request.fn, Request.w]

theorem pack32 (v : Word32) : Statement (.pack32 v) := by
  simp [Statement, encode, Request.rsv, Request.canonical, Request.readOpa, Request.readOpb, Request.readOpi,
    Request.fn, Request.w, low_word]

theorem pack64 (v : Word64) : Statement (.pack64 v) := by
  simp [Statement, encode, Request.rsv, Request.canonical, Request.readOpa, Request.readOpb, Request.readOpi,
    Request.fn, Request.w]

theorem place32 (acc : Word32) (j : Nibble) (b : Byte) : Statement (.place32 acc j b) := by
  simp [Statement, encode, Request.rsv, Request.canonical, Request.readOpa, Request.readOpb, Request.readOpi,
    Request.fn, Request.w, low_word]

theorem place64 (acc : Word64) (j : Nibble) (b : Byte) : Statement (.place64 acc j b) := by
  simp [Statement, encode, Request.rsv, Request.canonical, Request.readOpa, Request.readOpb, Request.readOpi,
    Request.fn, Request.w]

theorem valid32 (k : Nibble) (b : Byte) : Statement (.valid32 k b) := by
  simp [Statement, encode, Request.rsv, Request.canonical, Request.readOpa, Request.readOpb, Request.readOpi,
    Request.fn, Request.w]

theorem valid64 (k : Nibble) (b : Byte) : Statement (.valid64 k b) := by
  simp [Statement, encode, Request.rsv, Request.canonical, Request.readOpa, Request.readOpb, Request.readOpi,
    Request.fn, Request.w]

theorem cont (b : Byte) : Statement (.cont b) := by
  simp [Statement, encode, Request.rsv, Request.canonical, Request.readOpa, Request.readOpb, Request.readOpi,
    Request.fn, Request.w]

end Sys2Proof.Laws.CanonicalEncoding
end

