-- ==== Sys2Proof/Laws/Primitive.lean ====
section
/-! SUPPORT. The width constants, and the primitives in terms of numbers and single bits. -/

namespace Sys2Proof.Machine

@[simp] theorem Width.bits_w32 : Width.w32.bits = 32 := rfl
@[simp] theorem Width.bits_w64 : Width.w64.bits = 64 := rfl
@[simp] theorem Width.maxBytes_w32 : Width.w32.maxBytes = 5 := rfl
@[simp] theorem Width.maxBytes_w64 : Width.w64.maxBytes = 10 := rfl
@[simp] theorem Width.mask_w32 : Width.w32.mask = 0xF0 := rfl
@[simp] theorem Width.mask_w64 : Width.w64.mask = 0xFE := rfl

/-- The index range of 30_encoding.md R55 for `PLACE`. -/
theorem indexLegal_iff (w : Width) (j : Nibble) : indexLegal w j = true ↔ j.toNat ≤ w.maxBytes - 1 := by
  simp [indexLegal]

/-- The index range of 30_encoding.md R55 for `VALID`. -/
theorem byteNumberLegal_iff (w : Width) (k : Nibble) :
    byteNumberLegal w k = true ↔ k.toNat ≠ 0 ∧ k.toNat ≤ w.maxBytes := by
  simp only [byteNumberLegal, decide_eq_true_eq]

/-- The legal ranges of the syntax are the checks of the operations. -/
theorem wellFormed_place32 (acc : Word32) (j : Nibble) (b : Byte) :
    (Instr.place32 acc j b).wellFormed = indexLegal .w32 j := rfl

theorem wellFormed_place64 (acc : Word64) (j : Nibble) (b : Byte) :
    (Instr.place64 acc j b).wellFormed = indexLegal .w64 j := rfl

theorem wellFormed_valid32 (k : Nibble) (b : Byte) : (Instr.valid32 k b).wellFormed = byteNumberLegal .w32 k := by
  change decide _ = decide _
  rw [decide_eq_decide, Width.maxBytes_w32]
  omega

theorem wellFormed_valid64 (k : Nibble) (b : Byte) : (Instr.valid64 k b).wellFormed = byteNumberLegal .w64 k := by
  change decide _ = decide _
  rw [decide_eq_decide, Width.maxBytes_w64]
  omega

/-- When the validator accepts. -/
theorem valid_iff (w : Width) (k : Nat) (b : Byte) :
    valid w k b = true ↔ ¬(k = w.maxBytes ∧ b &&& w.mask ≠ 0) := by
  simp only [valid, Bool.not_eq_true', Bool.and_eq_false_iff, beq_eq_false_iff_ne, bne_eq_false_iff_eq, ne_eq]
  tauto

/-- When the validator rejects. -/
theorem valid_eq_false_iff (w : Width) (k : Nat) (b : Byte) :
    valid w k b = false ↔ k = w.maxBytes ∧ b &&& w.mask ≠ 0 := by
  rw [← Bool.not_eq_true, valid_iff, not_not]

/-- A byte below number `N` is always valid (90_conflicts.md C3). -/
theorem valid_of_ne {w : Width} {k : Nat} (b : Byte) (h : k ≠ w.maxBytes) : valid w k b = true :=
  (valid_iff w k b).2 fun hk => h hk.1

/-- `MASK` contains the continuation bit, so a valid byte number `N` ends its sequence (30_encoding.md R49). -/
theorem cont_of_valid_last {w : Width} {b : Byte} (h : valid w w.maxBytes b = true) : cont b = false := by
  have hb : b &&& w.mask = 0 := by simpa [valid_iff] using h
  have h7 : (b &&& w.mask).getLsbD 7 = false := by simp [hb]
  cases w <;> simpa [cont, Width.mask] using h7

/-- The continuation bit in terms of the byte's value. -/
theorem cont_iff (b : Byte) : cont b = true ↔ 128 ≤ b.toNat := by
  revert b
  decide

/-- The segment in terms of the byte's value. -/
theorem seg_toNat (b : Byte) : (seg b).toNat = b.toNat % 128 := by
  simp [seg]

/-- Some bit lies outside the low 7 exactly when the value is 128 or more. -/
theorem more_iff {n : Nat} (v : BitVec n) : more v = true ↔ 128 ≤ v.toNat := by
  have mask : ∀ i, segMask.getLsbD i = decide (i < 7) := by
    intro i
    by_cases h8 : i < 8
    · have small : ∀ k : Fin 8, segMask.getLsbD k.val = decide (k.val < 7) := by decide
      exact small ⟨i, h8⟩
    · rw [BitVec.getLsbD_of_ge _ _ (by omega)]
      simp
      omega
  have key : (v &&& ~~~(segMask.setWidth n)) = 0 ↔ v.toNat < 2 ^ 7 := by
    constructor
    · intro h
      apply Nat.lt_pow_two_of_testBit
      intro i hi
      rw [BitVec.testBit_toNat]
      by_cases hin : i < n
      · have hb := congrArg (fun x => x.getLsbD i) h
        simpa [BitVec.getLsbD_and, BitVec.getLsbD_not, BitVec.getLsbD_setWidth, mask, hin, not_lt.2 hi,
          -BitVec.getLsbD_eq_getElem] using hb
      · exact BitVec.getLsbD_of_ge _ _ (by omega)
    · intro h
      apply BitVec.eq_of_getLsbD_eq
      intro i hi
      by_cases h7 : i < 7
      · simp [BitVec.getLsbD_and, BitVec.getLsbD_not, BitVec.getLsbD_setWidth, mask, hi, h7,
          -BitVec.getLsbD_eq_getElem]
      · have hv : v.getLsbD i = false := by
          rw [← BitVec.testBit_toNat]
          exact Nat.testBit_lt_two_pow (lt_of_lt_of_le h (Nat.pow_le_pow_right (by omega) (by omega)))
        simp [hv, -BitVec.getLsbD_eq_getElem]
  simp only [more, bne_iff_ne, ne_eq, key]
  omega

/-- Something remains after the shift exactly when the value is 128 or more. -/
theorem shift_ne_zero_iff {n : Nat} (v : BitVec n) : v >>> 7 ≠ 0 ↔ 128 ≤ v.toNat := by
  rw [ne_eq, ← BitVec.toNat_inj, BitVec.toNat_ushiftRight, Nat.shiftRight_eq_div_pow]
  simp [Nat.div_eq_zero_iff]

/-- The packed byte's value: the low 7 bits, plus 128 when the value is 128 or more. -/
theorem pack_toNat {n : Nat} (v : BitVec n) :
    (pack v).toNat = v.toNat % 128 + if 128 ≤ v.toNat then 128 else 0 := by
  have hs : ((v.extractLsb' 0 7).setWidth 8).toNat = v.toNat % 128 := by
    simp only [BitVec.toNat_setWidth, BitVec.extractLsb'_toNat, Nat.shiftRight_zero]
    omega
  have key : ∀ x : Byte, x.toNat < 128 → (x ||| contBit).toNat = x.toNat + 128 := by decide
  unfold pack
  by_cases h : more v = true
  · rw [if_pos h, if_pos ((more_iff v).1 h), key _ (by omega), hs]
  · rw [if_neg h, if_neg (fun h' => h ((more_iff v).2 h'))]
    simpa using hs

end Sys2Proof.Machine
end

