-- ==== Sys2Proof/Laws/Run.lean ====
section
/-! SUPPORT. Runs of several steps, the acceptance of the codec requests, and the arithmetic the codecs' loops need. -/

namespace Sys2Proof.Machine

/-! ### Runs -/

/-- A run of the machine is the host's run of `core`. -/
theorem run_eq_core_run (k : Nat) (s : State) : run k s = Host.Core.run core k s := by
  induction k generalizing s with
  | zero => rfl
  | succ k ih =>
    cases h : step s with
    | next t =>
      have hc : core.step s = .next t := h
      simp only [run, Host.Core.run, h, hc, ih]
      rfl
    | fault e =>
      have hc : core.step s = .fault e := h
      simp only [run, Host.Core.run, h, hc]
      rfl
    | refused e =>
      have hc : core.step s = .refused e := h
      simp only [run, Host.Core.run, h, hc]
      rfl

/-- A step and then `k` more. -/
theorem run_succ {k : Nat} {s t : State} (h : step s = .next t) : run (k + 1) s = run k t := by
  simp [run, h]

/-- `a` steps and then `b` more. -/
theorem run_add {a b : Nat} {s t : State} (h : run a s = .next t) : run (a + b) s = run b t := by
  induction a generalizing s with
  | zero =>
    obtain rfl : s = t := by simpa [run] using h
    rw [Nat.zero_add]
  | succ a ih =>
    rw [Nat.add_right_comm]
    simp only [run] at h ⊢
    cases hs : step s <;> simp_all

/-! ### Acceptance of the codec requests -/

/-- The step that accepts `ENCW`. -/
theorem step_accepts_encode {s : State} {r : Request} {rest : List Request} {w : Width} {v : BitVec w.bits}
    (hr : s.resetIn = false) (hp : s.phase = .idle) (hq : s.requests = r :: rest)
    (hd : decode r = .ok (encodeInstr w v)) : step s = .next (s.takeRequest.beginEncode w (toField v)) := by
  rw [step_idle_cons hr hp hq, requestEffect, hd]
  cases w <;> rfl

/-- The step that accepts `DECW`. -/
theorem step_accepts_decode {s : State} {r : Request} {rest : List Request} {w : Width}
    (hr : s.resetIn = false) (hp : s.phase = .idle) (hq : s.requests = r :: rest)
    (hd : decode r = .ok (decodeInstr w)) : step s = .next (s.takeRequest.beginDecode w) := by
  rw [step_idle_cons hr hp hq, requestEffect, hd]
  cases w <;> rfl

/-! ### Values in fields -/

/-- A value of either width put into a field reads as it was put. -/
@[simp] theorem fromField_toField (w : Width) (v : BitVec w.bits) : fromField w (toField v) = v := by
  have hw : w.bits ≤ 64 := by cases w <;> decide
  rw [fromField, toField, BitVec.setWidth_setWidth_of_le v hw, BitVec.setWidth_eq]

/-- A value of either width keeps its number in a field. -/
theorem toField_toNat (w : Width) (v : BitVec w.bits) : (toField v).toNat = v.toNat := by
  have hv : v.toNat < 2 ^ 64 := lt_of_lt_of_le v.isLt (Nat.pow_le_pow_right (by norm_num) (by cases w <;> decide))
  rw [toField, BitVec.toNat_setWidth, Nat.mod_eq_of_lt hv]

/-! ### The loops' arithmetic -/

/-- The shift of the encode loop divides by 128. -/
theorem shift_toNat {n : Nat} (v : BitVec n) : (v >>> 7).toNat = v.toNat / 128 := by
  rw [BitVec.toNat_ushiftRight, Nat.shiftRight_eq_div_pow]

/-- `N` groups hold every value of the width (00_scope.md R7). -/
theorem value_lt_groups (w : Width) (v : BitVec w.bits) : v.toNat < 2 ^ (7 * w.maxBytes) :=
  lt_of_lt_of_le v.isLt (Nat.pow_le_pow_right (by norm_num) (by cases w <;> decide))

/-- Placing a segment above the groups read so far, where all of it fits, adds it at its weight. -/
theorem place_toNat {n : Nat} (acc : BitVec n) (j : Nat) (b : Byte) (below : acc.toNat < 2 ^ (7 * j))
    (fits : b.toNat % 128 * 2 ^ (7 * j) < 2 ^ n) :
    (place acc j b).toNat = acc.toNat + 2 ^ (7 * j) * (b.toNat % 128) := by
  have shifted : ((seg b).setWidth n <<< (7 * j)).toNat = (b.toNat % 128) <<< (7 * j) := by
    rw [BitVec.toNat_shiftLeft, BitVec.toNat_setWidth, seg_toNat, Nat.shiftLeft_eq, Nat.shiftLeft_eq, Nat.mod_mul_mod,
      Nat.mod_eq_of_lt fits]
  rw [place, BitVec.toNat_or, shifted, Nat.or_comm, ← Nat.shiftLeft_add_eq_or_of_lt below, Nat.shiftLeft_eq]
  ring

end Sys2Proof.Machine
end

