-- ==== Sys2Proof/Tests/Slice0.lean ====
section
/-! SUPPORT. The model's own tests, their expected results taken from the spec's tables, and a witness for the
hypotheses of every statement in Certificates/Slice0/Obligations.lean. -/

namespace Sys2Proof.Tests

open Sys2Proof.Machine

/-! ### Small states -/

/-- An idle engine with one request on the port. -/
def asked (r : Request) : State := { State.reset with requests := [r] }

/-- An encode in progress. -/
def encoding (w : Width) (rem : Word64) (idx : Nibble) (answers : List SinkAnswer) : State :=
  { State.reset with
    phase := .encBusy, wid := .holding w, rem := .holding rem, idx := .holding idx, sinkAnswers := answers }

/-- A decode in progress. -/
def decoding (w : Width) (acc : Word64) (idx : Nibble) (answers : List SourceAnswer) : State :=
  { State.reset with
    phase := .decBusy, wid := .holding w, acc := .holding acc, idx := .holding idx, source := answers }

/-- A decode whose next answer is a byte. -/
def decodingByte (w : Width) (acc : Word64) (idx : Nibble) (b : Byte) : State := decoding w acc idx [.byte b]

/-- The state an outcome answers. -/
def after : Host.Outcome State Fault Refusal → Option State
  | .next t => some t
  | .fault _ => none
  | .refused _ => none

/-- The response the next step delivers. -/
def answer (s : State) : Option Response := (after (step s)).bind State.response

/-- What a decode answers from the given bytes. -/
def decodes (w : Width) (bytes : List Byte) : DecodeResult w.bits := decodeW w (bytes.map .byte)

/-- The failure token every host has. -/
def tokenE : HostFailure := ⟨0, .inl rfl⟩

/-! ### WellFormed: an ill-formed term for each check (30_encoding.md R55) -/

theorem test_wellFormed_refuses_place32_index_5 : (Instr.place32 0 5 0x01).wellFormed = false := by decide
theorem test_wellFormed_refuses_place64_index_10 : (Instr.place64 0 10 0x01).wellFormed = false := by decide
theorem test_wellFormed_refuses_valid32_number_0 : (Instr.valid32 0 0x00).wellFormed = false := by decide
theorem test_wellFormed_refuses_valid32_number_6 : (Instr.valid32 6 0x00).wellFormed = false := by decide
theorem test_wellFormed_refuses_valid64_number_0 : (Instr.valid64 0 0x00).wellFormed = false := by decide
theorem test_wellFormed_refuses_valid64_number_11 : (Instr.valid64 11 0x00).wellFormed = false := by decide
theorem test_wellFormed_takes_the_bounds :
    (Instr.place32 0 4 0).wellFormed = true ∧ (Instr.place64 0 9 0).wellFormed = true ∧
    (Instr.valid32 1 0).wellFormed = true ∧ (Instr.valid32 5 0).wellFormed = true ∧
    (Instr.valid64 1 0).wellFormed = true ∧ (Instr.valid64 10 0).wellFormed = true := by decide

/-! ### Decoding: command words from `RSV` 7:4, `FN` 3:1, `W` 0 (30_encoding.md R51, R53), operands as in R59 -/

theorem test_decode_enc32 : decode ⟨0b0000_000_0, 0x12C, 0, 0⟩ = .ok (.enc32 300) := rfl
theorem test_decode_enc32_negative : decode ⟨0b0000_000_0, 0xFFFFFFFF, 0, 0⟩ = .ok (.enc32 (-1)) := rfl
theorem test_decode_enc64 : decode ⟨0b0000_000_1, 0xFFFFFFFFFFFFFFFF, 0, 0⟩ = .ok (.enc64 (-1)) := rfl
theorem test_decode_dec32 : decode ⟨0b0000_001_0, 0, 0, 0⟩ = .ok .dec32 := rfl
theorem test_decode_dec64 : decode ⟨0b0000_001_1, 0, 0, 0⟩ = .ok .dec64 := rfl
theorem test_decode_pack32 : decode ⟨0b0000_010_0, 0x12C, 0, 0⟩ = .ok (.pack32 0x12C) := rfl
theorem test_decode_pack64 : decode ⟨0b0000_010_1, 0x100000005, 0, 0⟩ = .ok (.pack64 0x100000005) := rfl
theorem test_decode_place32 : decode ⟨0b0000_011_0, 0x2C, 0x02, 1⟩ = .ok (.place32 0x2C 1 0x02) := rfl
theorem test_decode_place64 : decode ⟨0b0000_011_1, 0, 0x01, 9⟩ = .ok (.place64 0 9 0x01) := rfl
theorem test_decode_valid32 : decode ⟨0b0000_100_0, 0, 0x0F, 5⟩ = .ok (.valid32 5 0x0F) := rfl
theorem test_decode_valid64 : decode ⟨0b0000_100_1, 0, 0x01, 0xA⟩ = .ok (.valid64 10 0x01) := rfl
theorem test_decode_cont : decode ⟨0b0000_101_0, 0, 0xAC, 0⟩ = .ok (.cont 0xAC) := rfl
theorem test_decode_reserved_function : decode ⟨0b0000_110_0, 0, 0, 0⟩ = .error (.reservedCommand 0x0C) := rfl
theorem test_decode_reserved_cont_width_64 : decode ⟨0b0000_101_1, 0, 0, 0⟩ = .error (.reservedCommand 0x0B) := rfl
theorem test_decode_reserved_rsv : decode ⟨0b0001_000_0, 0, 0, 0⟩ = .error (.reservedCommand 0x10) := rfl

/-- The encodings of 30_encoding.md R59. -/
theorem test_encode_examples :
    encode (.enc32 300) = ⟨0x00, 0x12C, 0x00, 0x0⟩ ∧ encode (.enc32 (-1)) = ⟨0x00, 0xFFFFFFFF, 0x00, 0x0⟩ ∧
    encode (.enc64 (-1)) = ⟨0x01, 0xFFFFFFFFFFFFFFFF, 0x00, 0x0⟩ ∧ encode .dec32 = ⟨0x02, 0, 0x00, 0x0⟩ ∧
    encode (.place32 0x2C 1 0x02) = ⟨0x06, 0x2C, 0x02, 0x1⟩ ∧ encode (.valid64 10 0x01) = ⟨0x09, 0, 0x01, 0xA⟩ ∧
    encode (.cont 0xAC) = ⟨0x0A, 0, 0xAC, 0x0⟩ := by decide

/-- The table's word for `CONT` is read by the decoder, and the first step after reset accepts it (P6, step 7, with
`OPB` 0). -/
theorem test_fetch_word_runs :
    decodeTableWord 8 0x0A = some (.cont 0x00) ∧
    answer (State.reset.withFetchWord 8 0x0A) = some ⟨.ok, 0, 0, none⟩ := by decide

/-- A request laid out with all its fields: `VALID64 10, 0x01`. -/
theorem test_table_word_fields : decodeTableWord 84 0xA_01_0000000000000000_09 = some (.valid64 10 0x01) := by decide

/-! ### Two steps at most per instruction, from 95_test_vectors.md -/

/-- P7, steps 1 and 2 of `ENC32 300`: accepted without a transfer; then 0xAC is written and `REM` is 2. -/
theorem test_enc32_accepted : after (step (asked ⟨0x00, 0x12C, 0, 0⟩)) = some (encoding .w32 0x12C 0 []) := by decide
theorem test_enc32_step : after (step (encoding .w32 0x12C 0 [.ack])) =
    some { encoding .w32 0x02 1 [] with sink := [0xAC] } := by decide

/-- P5, steps 1 and 10. -/
theorem test_enc64_accepted : after (step (asked ⟨0x01, 0x8000000000000000, 0, 0⟩)) =
    some (encoding .w64 0x8000000000000000 0 []) := by decide
theorem test_enc64_step : after (step (encoding .w64 0x80 8 [.ack])) =
    some { encoding .w64 0x01 9 [] with sink := [0x80] } := by decide

/-- Section 1.7: the fifth 0xFF of five ends `DEC32`. -/
theorem test_dec32_accepted : after (step (asked ⟨0x02, 0, 0, 0⟩)) = some (decoding .w32 0 0 []) := by decide
theorem test_dec32_fifth_byte :
    answer (decodingByte .w32 0x0FFFFFFF 4 0xFF) = some ⟨.invalidEncoding, 0, 5, none⟩ := by decide

/-- P5, step 22: the tenth byte reaches bit 63. P6, step 4: a source failure with two bytes read. -/
theorem test_dec64_tenth_byte :
    answer (decodingByte .w64 0 9 0x01) = some ⟨.ok, 0x8000000000000000, 10, none⟩ := by decide
theorem test_dec64_failure (e : HostFailure) :
    answer (decoding .w64 0 2 [.fail e]) = some ⟨.sourceFailure, 0, 2, some e⟩ := rfl

/-- Section 2.2. -/
theorem test_pack32 : answer (asked ⟨0x04, 0x12C, 0, 0⟩) = some ⟨.ok, 0xAC, 0, none⟩ := by decide
theorem test_pack32_ignores_the_upper_word :
    answer (asked ⟨0x04, 0x100000005, 0, 0⟩) = some ⟨.ok, 0x05, 0, none⟩ := by decide
theorem test_pack64 : answer (asked ⟨0x05, 0x100000005, 0, 0⟩) = some ⟨.ok, 0x85, 0, none⟩ := by decide
theorem test_pack64_upper_word_continues :
    answer (asked ⟨0x05, 0xFFFFFFFF00000000, 0, 0⟩) = some ⟨.ok, 0x80, 0, none⟩ := by decide

/-- Section 2.3. -/
theorem test_place32 : answer (asked ⟨0x06, 0x2C, 0x02, 1⟩) = some ⟨.ok, 0x12C, 0, none⟩ := by decide
theorem test_place32_truncates : answer (asked ⟨0x06, 0, 0xFF, 4⟩) = some ⟨.ok, 0xF0000000, 0, none⟩ := by decide
theorem test_place64_top : answer (asked ⟨0x07, 0, 0x01, 9⟩) = some ⟨.ok, 0x8000000000000000, 0, none⟩ := by decide
theorem test_place64_out_of_range : answer (asked ⟨0x07, 0, 0x01, 10⟩) = some ⟨.illegalCommand, 0, 0, none⟩ := by
  decide

/-- Section 2.6. -/
theorem test_valid32_rejects : answer (asked ⟨0x08, 0, 0x10, 5⟩) = some ⟨.invalidEncoding, 0, 0, none⟩ := by decide
theorem test_valid32_out_of_range : answer (asked ⟨0x08, 0, 0x00, 6⟩) = some ⟨.illegalCommand, 0, 0, none⟩ := by decide
theorem test_valid64_accepts : answer (asked ⟨0x09, 0, 0x01, 10⟩) = some ⟨.ok, 0, 0, none⟩ := by decide
theorem test_valid64_rejects : answer (asked ⟨0x09, 0, 0x02, 10⟩) = some ⟨.invalidEncoding, 0, 0, none⟩ := by decide

/-- Section 2.1, with and without the ignored fields set. -/
theorem test_cont : answer (asked ⟨0x0A, 0, 0x80, 0⟩) = some ⟨.ok, 1, 0, none⟩ := by decide
theorem test_cont_ignores_other_fields :
    answer (asked ⟨0x0A, 0xFFFFFFFFFFFFFFFF, 0x02, 0xF⟩) = some ⟨.ok, 0, 0, none⟩ := by decide

/-- P6, step 5: a reserved word. -/
theorem test_reserved : answer (asked ⟨0x0B, 0, 0, 0⟩) = some ⟨.illegalCommand, 0, 0, none⟩ := by decide

/-- P7, step 3: the second write fails; one byte was acknowledged. -/
theorem test_sink_failure (f : HostFailure) :
    answer (encoding .w32 0x02 1 [.fail f]) = some ⟨.sinkFailure, 0, 1, some f⟩ := rfl

/-- Section 1.1: the source's own int32 literals. -/
theorem test_literals_int32 :
    encodeW .w32 0 = [0x00] ∧ encodeW .w32 127 = [0x7F] ∧ encodeW .w32 128 = [0x80, 0x01] ∧
    encodeW .w32 255 = [0xFF, 0x01] ∧ encodeW .w32 1048576 = [0x80, 0x80, 0x40] ∧
    encodeW .w32 0xFFFFFFFF = [0xFF, 0xFF, 0xFF, 0xFF, 0x0F] := by decide

/-- Sections 1.2 and 1.7: the source's lengths at width 64 and its two malformed streams. -/
theorem test_lengths_int64_and_malformed :
    (encodeW .w64 0x1000000000).length = 6 ∧ (encodeW .w64 0x7FFFFFFFFFFFFFFF).length = 9 ∧
    (encodeW .w64 0x8000000000000000).length = 10 ∧
    decodes .w32 (List.replicate 5 0xFF) = .invalidEncoding 5 ∧
    decodes .w64 (List.replicate 10 0xFF) = .invalidEncoding 10 := by decide

/-! ### Witnesses: for each statement with hypotheses, states and operands that meet them -/

/-- ResetAbandonsTheOperationAndKeepsTransfers: an encode in progress with a request held on the port. -/
def encodingHeld : State := { encoding .w32 0x12C 0 [.ack] with requests := [encode .dec32], sink := [0x07] }
theorem witness_ResetAbandons : encodingHeld.phase = .encBusy ∧ encodingHeld.requests = encode .dec32 :: [] := by
  decide

/-- DecodeAndEncodeAgree: a request with ignored fields set decodes, and clearing them gives the encoding. -/
theorem witness_DecodeAndEncodeAgree :
    decode ⟨0x04, 0x100000005, 1, 2⟩ = .ok (.pack32 5) ∧
    (⟨0x04, 0x100000005, 1, 2⟩ : Request).canonical = encode (.pack32 5) := ⟨rfl, by decide⟩

/-- ReservedCommandIsAnsweredIllegal, at the first and the last reserved word. -/
theorem witness_Reserved : ∀ c : Byte, c = 0x0B ∨ c = 0xFF →
    (asked ⟨c, 0, 0, 0⟩).resetIn = false ∧ (asked ⟨c, 0, 0, 0⟩).phase = .idle ∧
    (asked ⟨c, 0, 0, 0⟩).requests = [⟨c, 0, 0, 0⟩] ∧ 0x0B ≤ c.toNat := by
  rintro c (rfl | rfl) <;> decide

/-- IllegalCommandExactlyWhenReservedOrOutOfRange: a reserved word, an index out of range, and one within. -/
theorem witness_IllegalCommand :
    ((asked ⟨0x0B, 0, 0, 0⟩).resetIn = false ∧ (asked ⟨0x0B, 0, 0, 0⟩).phase = .idle ∧
      (asked ⟨0x0B, 0, 0, 0⟩).requests = [⟨0x0B, 0, 0, 0⟩] ∧ 0x0B ≤ (0x0B : Byte).toNat) ∧
    (decode ⟨0x06, 0, 0, 5⟩ = .ok (.place32 0 5 0) ∧ (Instr.place32 0 5 0).wellFormed = false ∧
      answer (asked ⟨0x06, 0, 0, 5⟩) = some ⟨.illegalCommand, 0, 0, none⟩) ∧
    (Instr.place32 0 4 0).wellFormed = true ∧ answer (asked ⟨0x06, 0, 0, 4⟩) = some ⟨.ok, 0, 0, none⟩ :=
  ⟨by decide, ⟨rfl, by decide, by decide⟩, by decide, by decide⟩

/-- StepRunsTheDecodedInstruction. -/
theorem witness_StepRuns :
    (asked ⟨0x0A, 0, 0xAC, 0⟩).resetIn = false ∧ (asked ⟨0x0A, 0, 0xAC, 0⟩).phase = .idle ∧
    (asked ⟨0x0A, 0, 0xAC, 0⟩).requests = [⟨0x0A, 0, 0xAC, 0⟩] ∧
    decode ⟨0x0A, 0, 0xAC, 0⟩ = .ok (.cont 0xAC) := ⟨rfl, rfl, rfl, rfl⟩

/-- EngineWaitsForTheHost: the three waits. -/
theorem witness_Waits :
    (State.reset.resetIn = false ∧ State.reset.phase = .idle ∧ State.reset.requests = []) ∧
    ((encoding .w32 5 0 []).resetIn = false ∧ (encoding .w32 5 0 []).phase = .encBusy ∧
      (encoding .w32 5 0 []).sinkAnswers = []) ∧
    ((decoding .w64 0 0 []).resetIn = false ∧ (decoding .w64 0 0 []).phase = .decBusy ∧
      (decoding .w64 0 0 []).source = []) := by decide

/-- BusyEngineHoldsRequests, and its clause about the request held: the last byte of an encode. -/
def lastByteHeld : State := { encoding .w32 0x02 1 [.ack] with requests := [encode .dec32] }
theorem witness_BusyHolds :
    lastByteHeld.resetIn = false ∧ lastByteHeld.phase ≠ .idle ∧ lastByteHeld.requests = encode .dec32 :: [] ∧
    (after (step lastByteHeld)).map State.phase = some .idle := by decide

/-- AStepMakesAtMostOneTransfer: a read, a write, a failed write, and a step without one. -/
theorem witness_OneTransfer :
    (∃ t, step (decodingByte .w32 0 0 0x80) = .next t ∧ t.source = []) ∧
    (∃ t, step (encoding .w32 0x12C 0 [.ack]) = .next t ∧ t.sink = [0xAC]) ∧
    (∃ t, step (encoding .w32 0x12C 0 [.fail tokenE]) = .next t ∧ t.sink = [] ∧ t.sinkAnswers = []) ∧
    ∃ t, step (asked ⟨0x02, 0, 0, 0⟩) = .next t ∧ t.source = [] ∧ t.sink = [] :=
  ⟨⟨_, rfl, rfl⟩, ⟨_, rfl, rfl⟩, ⟨_, rfl, rfl, rfl⟩, ⟨_, rfl, rfl, rfl⟩⟩

/-- AnOperationEndsExactlyWithItsResponse: a step that ends the operation and one that does not. -/
theorem witness_OperationEnds :
    (∃ t, step (decodingByte .w32 0 0 0x05) = .next t ∧ t.phase = .idle) ∧
    ∃ t, step (decodingByte .w32 0 0 0x85) = .next t ∧ t.phase = .decBusy := ⟨⟨_, rfl, rfl⟩, ⟨_, rfl, rfl⟩⟩

/-- ResponsesHaveTheFieldsOfTheirStatus: one step for each status. -/
theorem witness_Responses :
    (∃ t, step (decodingByte .w32 0 0 0x05) = .next t ∧ t.responses = [⟨.ok, 5, 1, none⟩]) ∧
    (∃ t, step (decodingByte .w32 0 4 0x10) = .next t ∧ t.responses = [⟨.invalidEncoding, 0, 5, none⟩]) ∧
    (∃ t, step (decoding .w32 0 0 [.fail tokenE]) = .next t ∧
      t.responses = [⟨.sourceFailure, 0, 0, some tokenE⟩]) ∧
    (∃ t, step (encoding .w32 5 0 [.fail tokenE]) = .next t ∧ t.responses = [⟨.sinkFailure, 0, 0, some tokenE⟩]) ∧
    (∃ t, step (encoding .w32 5 0 [.ack]) = .next t ∧ t.responses = [⟨.ok, 0, 1, none⟩]) ∧
    ∃ t, step (asked ⟨0x0B, 0, 0, 0⟩) = .next t ∧ t.responses = [⟨.illegalCommand, 0, 0, none⟩] :=
  ⟨⟨_, rfl, rfl⟩, ⟨_, rfl, rfl⟩, ⟨_, rfl, rfl⟩, ⟨_, rfl, rfl⟩, ⟨_, rfl, rfl⟩, ⟨_, rfl, rfl⟩⟩

/-- ResponsesHaveTheFieldsOfTheirStatus, its clauses about `VALID` and under the invariant: a failure at the last index,
an `OK` at the first and at the last. -/
theorem witness_ResponseCounts :
    (decode ⟨0x08, 0, 0x0F, 5⟩ = .ok (.valid32 5 0x0F) ∧ answer (asked ⟨0x08, 0, 0x0F, 5⟩) = some ⟨.ok, 0, 0, none⟩) ∧
    (decode ⟨0x09, 0, 0x01, 10⟩ = .ok (.valid64 10 0x01) ∧ answer (asked ⟨0x09, 0, 0x01, 10⟩) = some ⟨.ok, 0, 0, none⟩) ∧
    ((decoding .w32 0 4 [.fail tokenE]).Inv ∧
      answer (decoding .w32 0 4 [.fail tokenE]) = some ⟨.sourceFailure, 0, 4, some tokenE⟩) ∧
    ((encoding .w64 1 9 [.fail tokenE]).Inv ∧
      answer (encoding .w64 1 9 [.fail tokenE]) = some ⟨.sinkFailure, 0, 9, some tokenE⟩) ∧
    ((encoding .w32 5 0 [.ack]).Inv ∧ answer (encoding .w32 5 0 [.ack]) = some ⟨.ok, 0, 1, none⟩) ∧
    ((decodingByte .w64 0 9 0x01).Inv ∧
      answer (decodingByte .w64 0 9 0x01) = some ⟨.ok, 0x8000000000000000, 10, none⟩) :=
  ⟨⟨rfl, by decide⟩, ⟨rfl, by decide⟩, by decide, by decide, by decide, by decide⟩

/-- AResponseIsNotHeldAfterItsStep: a step that delivers, and the waiting step after it. -/
theorem witness_NotHeld :
    (∃ t, step (asked ⟨0x0A, 0, 0x80, 0⟩) = .next t ∧ t.response = some ⟨.ok, 1, 0, none⟩ ∧
      ∃ u, step t = .next u ∧ u.response = none ∧ u.responses = [⟨.ok, 1, 0, none⟩]) := ⟨_, rfl, rfl, _, rfl, rfl, rfl⟩

/-- HostActsDoNotMoveTheEngine: an act that is a reset, asserted and released at once, and one that is not. -/
theorem witness_HostActs :
    HostAct.readResponse ≠ .assertReset ∧
    (HostAct.releaseReset.apply (HostAct.assertReset.apply encodingHeld)).phase = .idle ∧
    (HostAct.releaseReset.apply encodingHeld).phase = .encBusy := by decide

/-- The host sees that a request is accepted in `IDLE` (10_state.md R25, 60_exceptions.md R117), and that none is while
reset is held asserted, where the step accepts none either (log entry 3). -/
theorem test_accepting_agrees_with_the_step :
    (asked ⟨0x0A, 0, 0x80, 0⟩).obs.accepting = true ∧
    (after (step (asked ⟨0x0A, 0, 0x80, 0⟩))).map State.requests = some [] ∧
    encodingHeld.obs.accepting = false ∧
    (HostAct.assertReset.apply (asked ⟨0x0A, 0, 0x80, 0⟩)).obs.accepting = false ∧
    (after (step (HostAct.assertReset.apply (asked ⟨0x0A, 0, 0x80, 0⟩)))).map State.requests =
      some [⟨0x0A, 0, 0x80, 0⟩] := by decide

/-- ContAnswersTheContinuationBit, at both sides of 0x80. -/
theorem witness_Cont :
    State.reset.phase = .idle ∧ (⟨0x0A, 0, 0x7F, 0⟩ : Request).cmd = 0x0A ∧
    (after (exec (.cont 0x7F) State.reset)).bind State.response = some ⟨.ok, 0, 0, none⟩ ∧
    (after (exec (.cont 0x80) State.reset)).bind State.response = some ⟨.ok, 1, 0, none⟩ := by decide

/-- PackAnswersTheComposedByte: both widths, at both sides of 0x80. -/
theorem witness_Pack :
    State.reset.phase = .idle ∧ (⟨0x04, 0x7F, 0, 0⟩ : Request).cmd = 0x04 ∧ (⟨0x05, 0x80, 0, 0⟩ : Request).cmd = 0x05 ∧
    (after (exec (.pack32 0x7F) State.reset)).bind State.response = some ⟨.ok, 0x7F, 0, none⟩ ∧
    (after (exec (.pack64 0x80) State.reset)).bind State.response = some ⟨.ok, 0x80, 0, none⟩ := by decide

/-- PlaceAnswersTheNewAccumulator: both widths, at both sides of the last index. -/
theorem witness_Place :
    State.reset.phase = .idle ∧ (⟨0x06, 0, 0x08, 4⟩ : Request).cmd = 0x06 ∧ (⟨0x07, 0, 1, 9⟩ : Request).cmd = 0x07 ∧
    (after (exec (.place32 0 4 0x08) State.reset)).bind State.response = some ⟨.ok, 0x80000000, 0, none⟩ ∧
    (after (exec (.place32 0 5 0x08) State.reset)).bind State.response = some ⟨.illegalCommand, 0, 0, none⟩ ∧
    (after (exec (.place64 0 9 0x01) State.reset)).bind State.response = some ⟨.ok, 0x8000000000000000, 0, none⟩ ∧
    (after (exec (.place64 0 10 0x01) State.reset)).bind State.response = some ⟨.illegalCommand, 0, 0, none⟩ := by
  decide

/-- ValidAnswersTheVerdict: both widths, each case at its boundary. -/
theorem witness_Valid :
    State.reset.phase = .idle ∧ (⟨0x08, 0, 0x0F, 5⟩ : Request).cmd = 0x08 ∧ (⟨0x09, 0, 1, 10⟩ : Request).cmd = 0x09 ∧
    (after (exec (.valid32 0 0x00) State.reset)).bind State.response = some ⟨.illegalCommand, 0, 0, none⟩ ∧
    (after (exec (.valid32 4 0xFF) State.reset)).bind State.response = some ⟨.ok, 0, 0, none⟩ ∧
    (after (exec (.valid32 5 0x0F) State.reset)).bind State.response = some ⟨.ok, 0, 0, none⟩ ∧
    (after (exec (.valid32 5 0x10) State.reset)).bind State.response = some ⟨.invalidEncoding, 0, 0, none⟩ ∧
    (after (exec (.valid64 11 0x00) State.reset)).bind State.response = some ⟨.illegalCommand, 0, 0, none⟩ ∧
    (after (exec (.valid64 9 0xFF) State.reset)).bind State.response = some ⟨.ok, 0, 0, none⟩ ∧
    (after (exec (.valid64 10 0x02) State.reset)).bind State.response = some ⟨.invalidEncoding, 0, 0, none⟩ := by
  decide

/-- PackedByteContinuesExactlyWhenMoreRemains: an acknowledged byte that is the last and one that is not. -/
theorem witness_PackedByte :
    (encoding .w32 0x7F 0 [.ack]).resetIn = false ∧ (encoding .w32 0x7F 0 [.ack]).phase = .encBusy ∧
    (encoding .w32 0x7F 0 [.ack]).sinkAnswers = .ack :: [] ∧
    (after (step (encoding .w32 0x7F 0 [.ack]))).map State.phase = some .idle ∧
    (after (step (encoding .w32 0x80 0 [.ack]))).map State.phase = some .encBusy := by decide

/-- PlacementPutsTheSegmentAtItsGroup: the lowest and the highest bit. -/
theorem witness_Placement : 0 < Width.w32.bits ∧ 31 < Width.w32.bits ∧ 63 < Width.w64.bits := by decide

/-- ValidatorChecksOnlyTheLastByteNumber: the byte numbers beside the last. -/
theorem witness_Validator : (4 : Nat) ≠ Width.w32.maxBytes ∧ (9 : Nat) ≠ Width.w64.maxBytes := by decide

/-- CodecRequestsAreAcceptedInIdle: each of the four command words. -/
theorem witness_CodecAccepted :
    State.reset.phase = .idle ∧ (encode (.enc32 300)).cmd = 0x00 ∧ (encode (.enc64 300)).cmd = 0x01 ∧
    (encode .dec32).cmd = 0x02 ∧ (encode .dec64).cmd = 0x03 := by decide

/-- EncodeStepWritesOneByte: a failure, a last byte, a byte that is not the last, at both widths. -/
theorem witness_EncodeStep :
    ((encoding .w32 0x02 1 [.fail tokenE]).resetIn = false ∧ (encoding .w32 0x02 1 [.fail tokenE]).phase = .encBusy ∧
      (encoding .w32 0x02 1 [.fail tokenE]).wid.val = .w32 ∧
      (encoding .w32 0x02 1 [.fail tokenE]).sinkAnswers = .fail tokenE :: []) ∧
    ((encoding .w32 0x7F 1 [.ack]).sinkAnswers = .ack :: [] ∧ (0x7F : Word32) >>> 7 = 0) ∧
    ((encoding .w64 0x80 8 [.ack]).wid.val = .w64 ∧ (0x80 : Word64) >>> 7 ≠ 0) := by decide

/-- DecodeStepReadsOneByte: a failure, and bytes of each kind at byte numbers 4, 5, 9 and 10. -/
theorem witness_DecodeStep :
    ((decoding .w32 0 0 [.fail tokenE]).resetIn = false ∧ (decoding .w32 0 0 [.fail tokenE]).phase = .decBusy ∧
      (decoding .w32 0 0 [.fail tokenE]).wid.val = .w32) ∧
    answer (decoding .w32 0 0 [.fail tokenE]) = some ⟨.sourceFailure, 0, 0, some tokenE⟩ ∧
    answer (decodingByte .w32 0 4 0x80) = some ⟨.invalidEncoding, 0, 5, none⟩ ∧
    answer (decodingByte .w32 0 4 0x0F) = some ⟨.ok, 0xF0000000, 5, none⟩ ∧
    (after (step (decodingByte .w32 0 3 0x80))).map State.phase = some .decBusy ∧
    answer (decodingByte .w64 0 9 0x02) = some ⟨.invalidEncoding, 0, 10, none⟩ ∧
    (after (step (decodingByte .w64 0 8 0xFF))).map (fun t => t.acc.val) = some 0x7F00000000000000 := by decide

/-- WidthIsLatchedFromTheCommandWord, at both widths. -/
theorem witness_WidthLatched :
    State.reset.phase = .idle ∧ decode ⟨0x00, 5, 0, 0⟩ = .ok (.enc32 5) ∧ startsEncode (.enc32 5) = true ∧
    (∃ t, exec (.enc32 5) State.reset = .next t) ∧ decode ⟨0x03, 0, 0, 0⟩ = .ok .dec64 ∧ startsDecode .dec64 = true ∧
    ∃ t, exec .dec64 State.reset = .next t := ⟨rfl, rfl, rfl, ⟨_, rfl⟩, rfl, rfl, ⟨_, rfl⟩⟩

/-- ExecLeavesEverythingElseUnchanged: an encode, a decode and a primitive, and a busy engine. -/
theorem witness_ExecLeaves :
    (∃ t, exec (.enc32 5) State.reset = .next t) ∧ (∃ t, exec .dec32 State.reset = .next t) ∧
    (∃ t, exec (.cont 0x80) State.reset = .next t) ∧ ∃ t, exec .dec32 encodingHeld = .next t :=
  ⟨⟨_, rfl⟩, ⟨_, rfl⟩, ⟨_, rfl⟩, ⟨_, rfl⟩⟩

/-- CodecStepsAreThePrimitivesComposed: an encode and a decode in states that meet the invariant, the decode at its
last byte number. -/
theorem witness_Composed :
    ((encoding .w32 0x12C 0 [.ack]).resetIn = false ∧ (encoding .w32 0x12C 0 [.ack]).wid.val = .w32 ∧
      (encoding .w32 0x12C 0 [.ack]).Inv ∧ State.reset.phase = .idle ∧
      (encoding .w32 0x12C 0 [.ack]).phase = .encBusy ∧ (encoding .w32 0x12C 0 [.ack]).sinkAnswers = .ack :: []) ∧
    ((decodingByte .w64 0 9 0x01).resetIn = false ∧ (decodingByte .w64 0 9 0x01).wid.val = .w64 ∧
      (decodingByte .w64 0 9 0x01).Inv ∧ (decodingByte .w64 0 9 0x01).phase = .decBusy ∧
      (decodingByte .w64 0 9 0x01).source = .byte 0x01 :: []) := by decide

/-- ZeroIsShortestAndNegativesAreLongest: the least negative pattern of each width. -/
theorem witness_Negatives : (0x80000000 : Word32).getLsbD 31 = true ∧ (0x8000000000000000 : Word64).getLsbD 63 = true := by
  decide

/-- EncodedBytesCarryTheGroupsInOrder: the first and the last byte of the longest sequence. -/
theorem witness_Groups :
    (encodeW .w64 0x8000000000000000)[1 - 1]? = some 0x80 ∧ (encodeW .w64 0x8000000000000000)[10 - 1]? = some 0x01 := by
  decide

/-- DecodedValueIsWhatTheGroupsSpell: a longest sequence, and an overlong one. -/
theorem witness_DecodedValue :
    ((∀ b ∈ List.replicate 4 (0xFF : Byte), cont b = true) ∧ cont 0x0F = false ∧
      (List.replicate 4 (0xFF : Byte)).length + 1 = Width.w32.maxBytes ∧ (0x0F : Byte) &&& Width.w32.mask = 0) ∧
    (∀ b ∈ [(0x80 : Byte)], cont b = true) ∧ cont 0x00 = false ∧ [(0x80 : Byte)].length + 1 ≤ Width.w32.maxBytes := by
  decide

/-- DecodeRejectsExactlyBadLastBytes: rejected at the fifth byte. -/
theorem witness_DecodeRejects :
    decodes .w32 [0x80, 0x80, 0x80, 0x80, 0x10] = .invalidEncoding 5 ∧ (0x10 : Byte) &&& Width.w32.mask ≠ 0 := by decide

/-- EncodeWritesExactlyItsSequence and EncodeStopsAtASinkFailure: `ENC32 300` with two `ack`, and with an `ack` and a
failure (P7). -/
def toEncode (answers : List SinkAnswer) : State := { asked (encode (.enc32 300)) with sinkAnswers := answers }
theorem witness_EncodeWrites :
    (toEncode [.ack, .ack]).resetIn = false ∧ (toEncode [.ack, .ack]).phase = .idle ∧
    (toEncode [.ack, .ack]).requests = encode (.enc32 300) :: [] ∧
    decode (encode (.enc32 300)) = .ok (encodeInstr .w32 300) ∧
    (toEncode [.ack, .ack]).sinkAnswers = List.replicate (encodeW .w32 300).length .ack ++ [] :=
  ⟨rfl, rfl, rfl, rfl, by decide⟩
theorem witness_EncodeStops :
    1 < (encodeW .w32 300).length ∧
    (toEncode [.ack, .fail tokenE]).sinkAnswers = List.replicate 1 .ack ++ .fail tokenE :: [] := by decide

/-- DecodeAnswersWhatTheFunctionReturns: each of the four results. -/
def toDecode (answers : List SourceAnswer) : State := { asked (encode .dec32) with source := answers }
theorem witness_DecodeAnswers :
    (toDecode []).resetIn = false ∧ (toDecode []).phase = .idle ∧ (toDecode []).requests = encode .dec32 :: [] ∧
    decode (encode .dec32) = .ok (decodeInstr .w32) ∧
    decodeW .w32 (toDecode [.byte 0xAC, .byte 0x02]).source = .ok 300 2 ∧
    decodeW .w32 (toDecode (List.replicate 5 (.byte 0xFF))).source = .invalidEncoding 5 ∧
    decodeW .w32 (toDecode [.byte 0x80, .fail tokenE]).source = .sourceFailure tokenE 1 ∧
    decodeW .w32 (toDecode [.byte 0x80]).source = .unanswered 1 :=
  ⟨rfl, rfl, rfl, rfl, by decide, by decide, by decide, by decide⟩

/-- DecodeOfAnEncodingIsTheValue. -/
theorem witness_RoundTrip :
    (toDecode [.byte 0xAC, .byte 0x02, .byte 0x07]).source = (encodeW .w32 300).map .byte ++ [.byte 0x07] := by decide

/-- SignedValuesRoundTrip: the least and the greatest integer of width 32, and the pattern of -1. -/
theorem witness_SignedValues :
    (-2 ^ (Width.w32.bits - 1) ≤ (-2147483648 : Int) ∧ (-2147483648 : Int) < 2 ^ (Width.w32.bits - 1)) ∧
    (-2 ^ (Width.w32.bits - 1) ≤ (2147483647 : Int) ∧ (2147483647 : Int) < 2 ^ (Width.w32.bits - 1)) ∧
    signedReading (0xFFFFFFFF : Word32) = -1 := by decide

/-- AnsweredOperationsEndInTime: an encode and a decode with exactly as many answers as transfers may come. -/
theorem witness_EndInTime :
    ((encoding .w32 0x02 1 (List.replicate 4 .ack)).Inv ∧ (encoding .w32 0x02 1 (List.replicate 4 .ack)).phase ≠ .idle ∧
      Width.w32.maxBytes - (1 : Nibble).toNat ≤ (encoding .w32 0x02 1 (List.replicate 4 .ack)).sinkAnswers.length) ∧
    ((decodingByte .w64 0 9 0x01).Inv ∧ (decodingByte .w64 0 9 0x01).phase ≠ .idle ∧
      Width.w64.maxBytes - (9 : Nibble).toNat ≤ (decodingByte .w64 0 9 0x01).source.length) := by decide

/-- StepKeepsTheInvariant: busy states that meet it and step. -/
theorem witness_StepKeeps :
    (encoding .w64 0x80 8 [.ack]).Inv ∧ (decodingByte .w64 0 8 0xFF).Inv ∧
    (∃ t, step (encoding .w64 0x80 8 [.ack]) = .next t) ∧ ∃ t, step (decodingByte .w64 0 8 0xFF) = .next t :=
  ⟨by decide, by decide, ⟨_, rfl⟩, ⟨_, rfl⟩⟩

/-- EveryReachableStateMeetsTheInvariant: a busy state is reachable. -/
theorem witness_Reachable : ∃ s, Reachable s ∧ s.phase = .encBusy :=
  ⟨_, .step (.act .reset (.present (encode (.enc32 300)))) rfl, rfl⟩

/-- NoOperationDependsOnEarlierOnes: an idle engine with leftovers in its registers. -/
theorem witness_NoDependence :
    ({ State.reset with rem := .holding 0x02, idx := .holding 1 } : State).phase = .idle ∧
    ({ State.reset with rem := .holding 0x02, idx := .holding 1 } : State).withoutRegisters = State.reset := by decide

/-- DeadRegistersNeverObserved: two different states that differ only where no rule reads. -/
theorem witness_DeadRegisters :
    (decodingByte .w32 0 0 0x85).SameLive { decodingByte .w32 0 0 0x85 with rem := .holding 0x99 } ∧
    decodingByte .w32 0 0 0x85 ≠ { decodingByte .w32 0 0 0x85 with rem := .holding 0x99 } := by decide

/-- HostFailureIsOpaque: a step that copies a token into its response. -/
theorem witness_HostFailure : ∃ t, step (decoding .w32 0 0 [.fail tokenE]) = .next t ∧
    t.response = some ⟨.sourceFailure, 0, 0, some tokenE⟩ := ⟨_, rfl, rfl⟩

/-- InstancesDoNotDisturbEachOther: two instances with streams of their own. -/
theorem witness_Instances :
    (System.reset (0, 0) [(1, 1)]).exclusive = true ∧ (0 : Nat) ≠ 1 ∧
    1 < (System.reset (0, 0) [(1, 1)]).instances.length := by decide

/-- SharedStreamsAreRefused: a shared source, and a shared sink. -/
theorem witness_SharedStreams :
    (System.reset (0, 0) [(0, 1)]).instances[0]? = some ⟨State.reset, 0, 0⟩ ∧
    (System.reset (0, 0) [(0, 1)]).instances[1]? = some ⟨State.reset, 0, 1⟩ ∧
    (System.reset (0, 0) [(1, 0)]).instances[1]? = some ⟨State.reset, 1, 0⟩ := by decide

end Sys2Proof.Tests
end

section
/-! PROOF. What a step does to the host's streams: the instructions accepted in `IDLE` leave them alone, an encode
step only writes, a decode step only reads. -/

namespace Sys2Proof.Machine

/-- An accepted instruction makes no transfer: the codecs only latch their operands, the others only respond. -/
theorem effect_keeps_streams (i : Instr) (s : State) :
    (effect i s).source = s.source ∧ (effect i s).sinkAnswers = s.sinkAnswers ∧ (effect i s).sink = s.sink := by
  by_cases he : startsEncode i = true
  · cases i <;> simp_all [startsEncode, effect]
  · by_cases hd : startsDecode i = true
    · cases i <;> simp_all [startsDecode, effect]
    · obtain ⟨st, res, heq, -⟩ := effect_responds i (by simpa using he) (by simpa using hd) s
      simp [heq]

/-- An accepted request makes no transfer, whether or not its command word is assigned. -/
theorem requestEffect_keeps_streams (r : Request) (s : State) :
    (requestEffect r s).source = s.source ∧ (requestEffect r s).sinkAnswers = s.sinkAnswers ∧
      (requestEffect r s).sink = s.sink := by
  unfold requestEffect
  cases decode r with
  | ok i => exact effect_keeps_streams i s
  | error e => simp

/-- An encode step reads nothing. -/
@[simp] theorem encodeStep_source (w : Width) (s : State) : (encodeStep w s).source = s.source := by
  rcases encodeStep_cases w s with ⟨-, h⟩ | ⟨f, rest, -, h⟩ | ⟨rest, -, -, h⟩ | ⟨rest, -, -, h⟩ <;> simp [h]

/-- An encode step waits, or takes a failure and writes nothing, or takes an `ack` and appends the offered byte
(20_memory.md R34). -/
theorem encodeStep_sink_cases (w : Width) (s : State) :
    ((encodeStep w s).sinkAnswers = s.sinkAnswers ∧ (encodeStep w s).sink = s.sink) ∨
    (∃ f, s.sinkAnswers = .fail f :: (encodeStep w s).sinkAnswers ∧ (encodeStep w s).sink = s.sink) ∨
    (s.sinkAnswers = .ack :: (encodeStep w s).sinkAnswers ∧
      (encodeStep w s).sink = s.sink ++ [offeredByte w s]) := by
  rcases encodeStep_cases w s with ⟨-, h⟩ | ⟨f, rest, ha, h⟩ | ⟨rest, ha, -, h⟩ | ⟨rest, ha, -, h⟩
  · exact .inl (by simp [h])
  · exact .inr (.inl ⟨f, by simp [h, ha]⟩)
  · exact .inr (.inr (by simp [h, ha]))
  · exact .inr (.inr (by simp [h, ha]))

/-- A decode step writes nothing: it takes no answer of the sink. -/
@[simp] theorem decodeStep_sinkAnswers (w : Width) (s : State) : (decodeStep w s).sinkAnswers = s.sinkAnswers := by
  rcases decodeStep_cases w s with ⟨-, h⟩ | ⟨f, rest, -, h⟩ | ⟨b, rest, -, -, h⟩ | ⟨b, rest, -, -, -, h⟩ |
    ⟨b, rest, -, -, -, h⟩ <;> simp [h]

/-- A decode step writes nothing: it leaves the sink's bytes. -/
@[simp] theorem decodeStep_sink (w : Width) (s : State) : (decodeStep w s).sink = s.sink := by
  rcases decodeStep_cases w s with ⟨-, h⟩ | ⟨f, rest, -, h⟩ | ⟨b, rest, -, -, h⟩ | ⟨b, rest, -, -, -, h⟩ |
    ⟨b, rest, -, -, -, h⟩ <;> simp [h]

/-- A decode step waits, or takes exactly one answer of the source (20_memory.md R33). -/
theorem decodeStep_source_cases (w : Width) (s : State) :
    (decodeStep w s).source = s.source ∨ ∃ a, s.source = a :: (decodeStep w s).source := by
  rcases decodeStep_cases w s with ⟨-, h⟩ | ⟨f, rest, hs, h⟩ | ⟨b, rest, hs, -, h⟩ | ⟨b, rest, hs, -, -, h⟩ |
    ⟨b, rest, hs, -, -, h⟩
  · exact .inl (by rw [h])
  · exact .inr ⟨.fail f, by simp [h, hs]⟩
  all_goals exact .inr ⟨.byte b, by simp [h, hs]⟩

/-- Settles O13, by what a step does in each phase: only the busy steps touch a stream, and each touches its own. -/
theorem aStepMakesAtMostOneTransfer : Obligations.AStepMakesAtMostOneTransfer := by
  intro s t ht
  rcases step_cases s with ⟨-, h⟩ | ⟨-, -, -, h⟩ | ⟨-, -, r, rest, -, h⟩ | ⟨-, hp, h⟩ | ⟨-, hp, h⟩ <;>
    obtain rfl := Host.Outcome.next.inj (h.symm.trans ht)
  · exact ⟨.inl rfl, .inl ⟨rfl, rfl⟩⟩
  · exact ⟨.inl rfl, .inl ⟨rfl, rfl⟩⟩
  · obtain ⟨hsource, hanswers, hsink⟩ := requestEffect_keeps_streams r s.takeRequest
    exact ⟨.inl hsource, .inl ⟨hanswers, hsink⟩⟩
  · refine ⟨.inl (by simp), ?_⟩
    rcases encodeStep_sink_cases s.wid.val s.clearResponse with hwait | hfail | hack
    · exact .inl hwait
    · exact .inr ⟨hp, .inl hfail⟩
    · exact .inr ⟨hp, .inr ⟨_, hack⟩⟩
  · refine ⟨?_, .inl (by simp)⟩
    rcases decodeStep_source_cases s.wid.val s.clearResponse with hwait | hread
    · exact .inl hwait
    · exact .inr ⟨hp, hread⟩

end Sys2Proof.Machine
end

section
/-! PROOF. The pure round trip: decoding the bytes of an encoding gives the value back, and the host's signed reading
of a two's-complement pattern is the integer it stands for. -/

namespace Sys2Proof.Machine

/-! ### The loops, one equation per case -/

/-- The encode loop's last round. -/
theorem encodeLoop_last {n : Nat} {r : BitVec n} (fuel : Nat) (h : r >>> 7 = 0) :
    encodeLoop (fuel + 1) r = [pack r] := by
  simp [encodeLoop, h]

/-- A round of the encode loop after which something remains. -/
theorem encodeLoop_more {n : Nat} {r : BitVec n} (fuel : Nat) (h : r >>> 7 ≠ 0) :
    encodeLoop (fuel + 1) r = pack r :: encodeLoop fuel (r >>> 7) := by
  rw [encodeLoop, if_neg h]

/-- The decode loop at a valid byte that ends the sequence. -/
theorem decodeLoop_last {w : Width} {acc : BitVec w.bits} {k : Nat} {b : Byte} (rest : List SourceAnswer)
    (hv : valid w (k + 1) b = true) (hc : cont b = false) :
    decodeLoop w acc k (.byte b :: rest) = .ok (place acc k b) (k + 1) := by
  simp [decodeLoop, hv, hc]

/-- The decode loop at a valid byte that continues the sequence. -/
theorem decodeLoop_more {w : Width} {acc : BitVec w.bits} {k : Nat} {b : Byte} (rest : List SourceAnswer)
    (hv : valid w (k + 1) b = true) (hc : cont b = true) :
    decodeLoop w acc k (.byte b :: rest) = decodeLoop w (place acc k b) (k + 1) rest := by
  simp [decodeLoop, hv, hc]

/-! ### What the decoder finds in a packed byte -/

/-- Nothing remains after the shift exactly when the value is one group. -/
theorem shift_eq_zero_iff {n : Nat} (r : BitVec n) : r >>> 7 = 0 ↔ r.toNat < 128 := by
  rw [← not_iff_not, ← ne_eq, shift_ne_zero_iff, not_lt]

/-- The packed byte's continuation bit says whether anything remains after its group. -/
theorem cont_pack_iff {n : Nat} (r : BitVec n) : cont (pack r) = true ↔ r >>> 7 ≠ 0 := by
  rw [cont_iff, shift_ne_zero_iff, pack_toNat]
  split <;> omega

/-- A byte has no bit of `MASK` exactly when it fits the bits that the groups before byte number `N` leave. -/
theorem and_mask_eq_zero_iff (w : Width) (b : Byte) :
    b &&& w.mask = 0 ↔ b.toNat < 2 ^ (w.bits - 7 * (w.maxBytes - 1)) := by
  cases w <;> revert b <;> decide

/-- What remains for byte number `N` fits the bits that the groups before it leave. -/
theorem remainder_lt_of_last {w : Width} {r : BitVec w.bits} {k : Nat} (hk : k + 1 = w.maxBytes)
    (fits : 2 ^ (7 * k) * r.toNat < 2 ^ w.bits) : r.toNat < 2 ^ (w.bits - 7 * (w.maxBytes - 1)) := by
  have hlt : 7 * k < w.bits := by
    cases w
    · rw [Width.maxBytes_w32] at hk; rw [Width.bits_w32]; omega
    · rw [Width.maxBytes_w64] at hk; rw [Width.bits_w64]; omega
  rw [← hk, Nat.add_sub_cancel]
  rw [← pow_mul_pow_sub 2 hlt.le] at fits
  exact Nat.lt_of_mul_lt_mul_left fits

/-- Those bits are at most 7: nothing remains after byte number `N`. -/
theorem shift_eq_zero_of_last {w : Width} {r : BitVec w.bits} {k : Nat} (hk : k + 1 = w.maxBytes)
    (fits : 2 ^ (7 * k) * r.toNat < 2 ^ w.bits) : r >>> 7 = 0 := by
  have room : 2 ^ (w.bits - 7 * (w.maxBytes - 1)) ≤ 128 := by cases w <;> decide
  exact (shift_eq_zero_iff r).2 ((remainder_lt_of_last hk fits).trans_le room)

/-- The packed byte of a remainder with one group is the remainder. -/
theorem pack_toNat_of_shift_eq_zero {n : Nat} {r : BitVec n} (h : r >>> 7 = 0) : (pack r).toNat = r.toNat := by
  have small := (shift_eq_zero_iff r).1 h
  rw [pack_toNat, if_neg (by omega), Nat.mod_eq_of_lt small, Nat.add_zero]

/-- A packed remainder that fits above the groups read so far is a valid byte: as byte number `N` it is the
remainder itself, too small to hold a bit of `MASK`. -/
theorem valid_pack {w : Width} {r : BitVec w.bits} {k : Nat} (fits : 2 ^ (7 * k) * r.toNat < 2 ^ w.bits) :
    valid w (k + 1) (pack r) = true := by
  rw [valid_iff]
  rintro ⟨hk, hmask⟩
  refine hmask ((and_mask_eq_zero_iff w _).2 ?_)
  rw [pack_toNat_of_shift_eq_zero (shift_eq_zero_of_last hk fits)]
  exact remainder_lt_of_last hk fits

/-- Placing the packed byte of a remainder that fits above the groups read so far adds its group at its weight. -/
theorem place_pack_toNat {n : Nat} {acc r : BitVec n} {k : Nat} (below : acc.toNat < 2 ^ (7 * k))
    (fits : 2 ^ (7 * k) * r.toNat < 2 ^ n) :
    (place acc k (pack r)).toNat = acc.toNat + 2 ^ (7 * k) * (r.toNat % 128) := by
  have group : (pack r).toNat % 128 = r.toNat % 128 := by
    rw [pack_toNat]
    split <;> omega
  rw [place_toNat acc k _ below, group]
  rw [group, Nat.mul_comm]
  exact (Nat.mul_le_mul_left _ (Nat.mod_le _ _)).trans_lt fits

/-! ### The round trip -/

/-- A part of a value fits its width. -/
theorem lt_two_pow_of_toNat_eq_add {n a b : Nat} {v : BitVec n} (h : v.toNat = a + b) : b < 2 ^ n :=
  (Nat.le_add_left b a).trans_lt (h ▸ v.isLt)

/-- The decode loop at the packed byte of the last group. -/
theorem decodeLoop_encodeLoop_last {w : Width} {v acc r : BitVec w.bits} {k : Nat} (later : List SourceAnswer)
    (fuel : Nat) (below : acc.toNat < 2 ^ (7 * k)) (spells : v.toNat = acc.toNat + 2 ^ (7 * k) * r.toNat)
    (last : r >>> 7 = 0) :
    decodeLoop w acc k ((encodeLoop (fuel + 1) r).map .byte ++ later) =
      .ok v (k + (encodeLoop (fuel + 1) r).length) := by
  have fits := lt_two_pow_of_toNat_eq_add spells
  have value : place acc k (pack r) = v := by
    rw [← BitVec.toNat_inj, place_pack_toNat below fits,
      Nat.mod_eq_of_lt ((shift_eq_zero_iff r).1 last), spells]
  have hc : cont (pack r) = false := by simpa [last] using cont_pack_iff r
  rw [encodeLoop_last fuel last, List.map_singleton, List.singleton_append, decodeLoop_last _ (valid_pack fits) hc,
    value, List.length_singleton]

/-- The loops undo each other. `spells` is the invariant: the accumulator and the remainder, at its weight, make up
the value. -/
theorem decodeLoop_encodeLoop {w : Width} {v : BitVec w.bits} (later : List SourceAnswer) (fuel : Nat)
    (acc r : BitVec w.bits) (k : Nat) (count : k + fuel + 1 = w.maxBytes) (below : acc.toNat < 2 ^ (7 * k))
    (spells : v.toNat = acc.toNat + 2 ^ (7 * k) * r.toNat) :
    decodeLoop w acc k ((encodeLoop (fuel + 1) r).map .byte ++ later) =
      .ok v (k + (encodeLoop (fuel + 1) r).length) := by
  induction fuel generalizing acc r k with
  | zero =>
    have fits := lt_two_pow_of_toNat_eq_add spells
    exact decodeLoop_encodeLoop_last later 0 below spells (shift_eq_zero_of_last count fits)
  | succ fuel ih =>
    by_cases last : r >>> 7 = 0
    · exact decodeLoop_encodeLoop_last later _ below spells last
    · have fits := lt_two_pow_of_toNat_eq_add spells
      have placed := place_pack_toNat below fits
      have weight : 2 ^ (7 * (k + 1)) = 2 ^ (7 * k) * 128 := by rw [Nat.mul_succ, pow_add]; norm_num
      have below' : (place acc k (pack r)).toNat < 2 ^ (7 * (k + 1)) := by
        have room : 2 ^ (7 * k) * (r.toNat % 128 + 1) ≤ 2 ^ (7 * k) * 128 := Nat.mul_le_mul_left _ (by omega)
        rw [Nat.mul_succ] at room
        omega
      have spells' : v.toNat = (place acc k (pack r)).toNat + 2 ^ (7 * (k + 1)) * (r >>> 7).toNat := by
        rw [placed, weight, shift_toNat, Nat.add_assoc, Nat.mul_assoc, ← Nat.mul_add, Nat.mod_add_div, spells]
      rw [encodeLoop_more _ last, List.map_cons, List.cons_append,
        decodeLoop_more _ (valid_pack fits) ((cont_pack_iff r).2 last), ih _ _ _ (by omega) below' spells',
        List.length_cons, Nat.add_right_comm, Nat.add_assoc]

/-- Round trip of the pure functions, with anything after the sequence left unread (41_codec32.md R82, 42_codec64.md
R98). -/
theorem decodeW_encodeW (w : Width) (v : BitVec w.bits) (later : List SourceAnswer) :
    decodeW w ((encodeW w v).map .byte ++ later) = .ok v (encodeW w v).length := by
  obtain ⟨fuel, hN⟩ : ∃ fuel, w.maxBytes = fuel + 1 := by cases w <;> exact ⟨_, rfl⟩
  rw [decodeW, encodeW, hN, decodeLoop_encodeLoop later fuel 0 v 0 (by omega) (by simp) (v := v) (by simp),
    Nat.zero_add]

/-- The host's reading is the two's-complement value of the pattern (00_scope.md R11). -/
theorem signedReading_eq_toInt {n : Nat} (p : BitVec n) : signedReading p = p.toInt := by
  rw [signedReading, ← BitVec.msb_eq_getLsbD_last, BitVec.toInt_eq_msb_cond, Nat.cast_pow, Nat.cast_ofNat]

/-- Settles O40: the pure round trip gives the pattern back, and its signed reading is the integer. -/
theorem signedValuesRoundTrip : Obligations.SignedValuesRoundTrip := by
  intro w x hlow hhigh
  have hw : 0 < w.bits := by cases w <;> decide
  refine ⟨BitVec.ofInt w.bits x, ?_, ?_⟩
  · simpa using decodeW_encodeW w (BitVec.ofInt w.bits x) []
  · rw [signedReading_eq_toInt, BitVec.toInt_ofInt_eq_self hw hlow hhigh]

end Sys2Proof.Machine
end

section
/-! PROOF. What an accepted instruction can do, said once: it starts an encode, it starts a decode, or it responds. -/

namespace Sys2Proof.Machine

/-- `PLACE` responds with its value, or with `ILLEGAL_COMMAND` (40_primitives.md R64). -/
theorem placeEffect_responds (w : Width) (acc : BitVec w.bits) (j : Nibble) (b : Byte) :
    ∃ st res, (∀ s, placeEffect w acc j b s = s.respond st res 0 none) ∧ (st ≠ .ok → res = 0) ∧
      (st = .ok ∨ st = .invalidEncoding ∨ st = .illegalCommand) := by
  by_cases legal : indexLegal w j = true
  · exact ⟨.ok, toField (place acc j.toNat b), fun s => by simp [placeEffect, legal], by simp, by simp⟩
  · exact ⟨.illegalCommand, 0, fun s => by simp [placeEffect, legal], by simp, by simp⟩

/-- `VALID` responds with a status alone (40_primitives.md R67). -/
theorem validEffect_responds (w : Width) (k : Nibble) (b : Byte) :
    ∃ st, (∀ s, validEffect w k b s = s.respond st 0 0 none) ∧
      (st = .ok ∨ st = .invalidEncoding ∨ st = .illegalCommand) := by
  by_cases legal : byteNumberLegal w k = true
  · by_cases accepted : valid w k.toNat b = true
    · exact ⟨.ok, fun s => by simp [validEffect, legal, accepted], by simp⟩
    · exact ⟨.invalidEncoding, fun s => by simp [validEffect, legal, accepted], by simp⟩
  · exact ⟨.illegalCommand, fun s => by simp [validEffect, legal], by simp⟩

/-- Everything an accepted instruction can do, the same in every state. -/
theorem effect_cases (i : Instr) :
    (startsEncode i = true ∧ startsDecode i = false ∧
      ∃ (w : Width) (v : BitVec w.bits), ∀ s, effect i s = s.beginEncode w (toField v)) ∨
    (startsEncode i = false ∧ startsDecode i = true ∧ ∃ w, ∀ s, effect i s = s.beginDecode w) ∨
    (startsEncode i = false ∧ startsDecode i = false ∧
      ∃ st res, (∀ s, effect i s = s.respond st res 0 none) ∧ (st ≠ .ok → res = 0) ∧
        (st = .ok ∨ st = .invalidEncoding ∨ st = .illegalCommand)) := by
  cases i with
  | enc32 v => exact .inl ⟨rfl, rfl, .w32, v, fun _ => rfl⟩
  | enc64 v => exact .inl ⟨rfl, rfl, .w64, v, fun _ => rfl⟩
  | dec32 => exact .inr (.inl ⟨rfl, rfl, .w32, fun _ => rfl⟩)
  | dec64 => exact .inr (.inl ⟨rfl, rfl, .w64, fun _ => rfl⟩)
  | pack32 v => exact .inr (.inr ⟨rfl, rfl, .ok, _, fun _ => rfl, by simp, by simp⟩)
  | pack64 v => exact .inr (.inr ⟨rfl, rfl, .ok, _, fun _ => rfl, by simp, by simp⟩)
  | place32 acc j b => exact .inr (.inr ⟨rfl, rfl, placeEffect_responds .w32 acc j b⟩)
  | place64 acc j b => exact .inr (.inr ⟨rfl, rfl, placeEffect_responds .w64 acc j b⟩)
  | valid32 k b =>
    obtain ⟨st, heq, status⟩ := validEffect_responds .w32 k b
    exact .inr (.inr ⟨rfl, rfl, st, 0, heq, fun _ => rfl, status⟩)
  | valid64 k b =>
    obtain ⟨st, heq, status⟩ := validEffect_responds .w64 k b
    exact .inr (.inr ⟨rfl, rfl, st, 0, heq, fun _ => rfl, status⟩)
  | cont b => exact .inr (.inr ⟨rfl, rfl, .ok, _, fun _ => rfl, by simp, by simp⟩)

end Sys2Proof.Machine
end

section
/-! PROOF. The invariant of 10_state.md R26: it holds at reset, and every step and every act of the host keep it. -/

namespace Sys2Proof.Machine

/-! ### The invariant, phase by phase -/

/-- In `IDLE` no register is read, and the invariant asks for nothing. -/
theorem State.inv_of_idle {s : State} (hp : s.phase = .idle) : s.Inv := by
  simp [State.Inv, State.IndexBounded, State.RemainderPending, State.RemainderBounded, State.AccumulatorBounded,
    State.ReadRegistersWritten, hp]

/-- What the invariant asks of an encoding engine. -/
theorem State.inv_iff_of_encoding {s : State} (hp : s.phase = .encBusy) :
    s.Inv ↔ s.idx.val.toNat ≤ s.wid.val.maxBytes - 1 ∧ (s.rem.val ≠ 0 ∨ s.idx.val = 0) ∧
      s.rem.val.toNat < 2 ^ (s.wid.val.bits - 7 * s.idx.val.toNat) ∧
      s.wid.written = true ∧ s.idx.written = true ∧ s.rem.written = true := by
  simp [State.Inv, State.IndexBounded, State.RemainderPending, State.RemainderBounded, State.AccumulatorBounded,
    State.ReadRegistersWritten, hp, and_assoc]

/-- What the invariant asks of a decoding engine. -/
theorem State.inv_iff_of_decoding {s : State} (hp : s.phase = .decBusy) :
    s.Inv ↔ s.idx.val.toNat ≤ s.wid.val.maxBytes - 1 ∧ s.acc.val.toNat < 2 ^ (7 * s.idx.val.toNat) ∧
      s.wid.written = true ∧ s.idx.written = true ∧ s.acc.written = true := by
  simp [State.Inv, State.IndexBounded, State.RemainderPending, State.RemainderBounded, State.AccumulatorBounded,
    State.ReadRegistersWritten, hp, and_assoc]

/-- The invariant does not speak of the response port. -/
theorem State.inv_clearResponse {s : State} (h : s.Inv) : s.clearResponse.Inv := h

/-! ### Counts and values within their bounds -/

/-- Every sequence may hold a byte. -/
theorem Width.maxBytes_pos (w : Width) : 0 < w.maxBytes := by cases w <;> decide

/-- A count below `N` does not wrap. -/
theorem idx_succ_toNat {w : Width} {i : Nibble} (h : i.toNat ≤ w.maxBytes - 1) : (i + 1).toNat = i.toNat + 1 := by
  have hN : w.maxBytes ≤ 10 := by cases w <;> decide
  exact BitVec.toNat_add_of_lt (show i.toNat + 1 < 2 ^ 4 by omega)

/-- A register within its width is read whole. -/
theorem fromField_toNat_of_lt {w : Width} {x : Word64} (h : x.toNat < 2 ^ w.bits) : (fromField w x).toNat = x.toNat := by
  rw [fromField, BitVec.toNat_setWidth, Nat.mod_eq_of_lt h]

/-- A field holding a value of either width is within that width. -/
theorem toField_lt (w : Width) (v : BitVec w.bits) : (toField v).toNat < 2 ^ w.bits :=
  (toField_toNat w v).trans_lt v.isLt

/-- When more than one group remains, a byte number below `N` has been written. -/
theorem idx_lt_of_group_remains {w : Width} {i n : Nat} (bound : n < 2 ^ (w.bits - 7 * i)) (more : 128 ≤ n) :
    i + 1 ≤ w.maxBytes - 1 := by
  have room : 7 < w.bits - 7 * i := (Nat.pow_lt_pow_iff_right (by norm_num : 1 < 2)).1 (more.trans_lt bound)
  cases w
  · rw [Width.bits_w32] at room; rw [Width.maxBytes_w32]; omega
  · rw [Width.bits_w64] at room; rw [Width.maxBytes_w64]; omega

/-- Taking a group off the remaining value takes 7 bits off its bound. -/
theorem div_group_lt {w i n : Nat} (bound : n < 2 ^ (w - 7 * i)) (more : 128 ≤ n) :
    n / 128 < 2 ^ (w - 7 * (i + 1)) := by
  have room : 7 < w - 7 * i := (Nat.pow_lt_pow_iff_right (by norm_num : 1 < 2)).1 (more.trans_lt bound)
  rw [Nat.div_lt_iff_lt_mul (by norm_num), show (128 : Nat) = 2 ^ 7 from rfl, ← pow_add]
  rwa [show w - 7 * (i + 1) + 7 = w - 7 * i by omega]

/-- Before byte number `N`, placing a segment above the groups read so far gives a value of one group more. -/
theorem place_lt {w : Width} {acc : BitVec w.bits} {i : Nat} (b : Byte) (below : acc.toNat < 2 ^ (7 * i))
    (hi : i + 1 ≤ w.maxBytes - 1) : (place acc i b).toNat < 2 ^ (7 * (i + 1)) := by
  have weight : 2 ^ (7 * (i + 1)) = 2 ^ (7 * i) * 128 := by rw [Nat.mul_succ, pow_add]; norm_num
  have room : 2 ^ (7 * i) * (b.toNat % 128 + 1) ≤ 2 ^ (7 * (i + 1)) :=
    weight ▸ Nat.mul_le_mul_left _ (by omega)
  have width : 2 ^ (7 * (i + 1)) ≤ 2 ^ w.bits := by
    refine Nat.pow_le_pow_right (by norm_num) ((Nat.mul_le_mul_left 7 hi).trans ?_)
    cases w <;> decide
  rw [Nat.mul_succ] at room
  rw [place_toNat acc i b below (by rw [Nat.mul_comm]; have := Nat.two_pow_pos (7 * i); omega)]
  omega

/-! ### The steps keep it -/

/-- A codec request is accepted into a state that meets the invariant; the others leave the engine idle. -/
theorem effect_inv (i : Instr) (s : State) : (effect i s).Inv := by
  rcases effect_cases i with ⟨-, -, w, v, heq⟩ | ⟨-, -, w, heq⟩ | ⟨-, -, st, res, heq, -⟩ <;> rw [heq]
  · exact (State.inv_iff_of_encoding rfl).2 ⟨by simp, by simp, by simpa using toField_lt w v, rfl, rfl, rfl⟩
  · exact (State.inv_iff_of_decoding rfl).2 ⟨by simp, by simp, rfl, rfl, rfl⟩
  · exact State.inv_of_idle rfl

/-- An accepted request, assigned or reserved, leaves a state that meets the invariant. -/
theorem requestEffect_inv (r : Request) (s : State) : (requestEffect r s).Inv := by
  unfold requestEffect
  cases decode r with
  | ok i => exact effect_inv i s
  | error e => exact State.inv_of_idle rfl

/-- An encode that goes on has more than one group left, so it stays below byte number `N`. -/
theorem encodeStep_inv {s : State} (hp : s.phase = .encBusy) (h : s.Inv) : (encodeStep s.wid.val s).Inv := by
  rcases encodeStep_cases s.wid.val s with ⟨-, hs⟩ | ⟨f, rest, -, hs⟩ | ⟨rest, -, -, hs⟩ | ⟨rest, -, hr, hs⟩ <;>
    rw [hs]
  · exact h
  · exact State.inv_of_idle rfl
  · exact State.inv_of_idle rfl
  · obtain ⟨hidx, -, bound, hwid, -, -⟩ := (State.inv_iff_of_encoding hp).1 h
    have hsucc := idx_succ_toNat hidx
    have whole : (fromField s.wid.val s.rem.val).toNat = s.rem.val.toNat :=
      fromField_toNat_of_lt (bound.trans_le (Nat.pow_le_pow_right (by norm_num) (Nat.sub_le _ _)))
    have more : 128 ≤ s.rem.val.toNat := whole ▸ (shift_ne_zero_iff _).1 hr
    have remaining : (toField (fromField s.wid.val s.rem.val >>> 7)).toNat = s.rem.val.toNat / 128 := by
      rw [toField_toNat, shift_toNat, whole]
    have pending : toField (fromField s.wid.val s.rem.val >>> 7) ≠ 0 := fun h0 => by
      rw [h0] at remaining
      change 0 = _ at remaining
      omega
    refine (State.inv_iff_of_encoding (s := State.keepEncoding _ _ _) hp).2 ⟨?_, .inl pending, ?_, hwid, rfl, rfl⟩
    · simpa only [State.keepEncoding_idx, State.keepEncoding_wid, hsucc] using idx_lt_of_group_remains bound more
    · simpa only [State.keepEncoding_rem, State.keepEncoding_idx, State.keepEncoding_wid, hsucc, remaining]
        using div_group_lt bound more

/-- A decode that goes on has not read byte number `N`, which a valid sequence ends with. -/
theorem decodeStep_inv {s : State} (hp : s.phase = .decBusy) (h : s.Inv) : (decodeStep s.wid.val s).Inv := by
  rcases decodeStep_cases s.wid.val s with ⟨-, hs⟩ | ⟨f, rest, -, hs⟩ | ⟨b, rest, -, -, hs⟩ |
    ⟨b, rest, -, hv, hc, hs⟩ | ⟨b, rest, -, -, -, hs⟩ <;> rw [hs]
  · exact h
  · exact State.inv_of_idle rfl
  · exact State.inv_of_idle rfl
  · obtain ⟨hidx, bound, hwid, -, -⟩ := (State.inv_iff_of_decoding hp).1 h
    have hsucc := idx_succ_toNat hidx
    have notLast : s.idx.val.toNat + 1 ≠ s.wid.val.maxBytes := fun hN => by
      rw [hsucc, hN] at hv
      simp [cont_of_valid_last hv] at hc
    have hnext : s.idx.val.toNat + 1 ≤ s.wid.val.maxBytes - 1 := by
      have := s.wid.val.maxBytes_pos
      omega
    have read : (fromField s.wid.val s.acc.val).toNat < 2 ^ (7 * s.idx.val.toNat) :=
      by
      rw [fromField, BitVec.toNat_setWidth]
      exact (Nat.mod_le _ _).trans_lt bound
    refine (State.inv_iff_of_decoding (s := State.keepDecoding _ _ _) hp).2 ⟨?_, ?_, hwid, rfl, rfl⟩
    · simpa only [State.keepDecoding_idx, State.keepDecoding_wid, hsucc] using hnext
    · simpa only [State.keepDecoding_acc, State.keepDecoding_idx, hsucc, toField_toNat] using place_lt b read hnext
  · exact State.inv_of_idle rfl

/-- Settles O43, by what a step does in each phase. -/
theorem stepKeepsTheInvariant : Obligations.StepKeepsTheInvariant := by
  intro s t h ht
  rcases step_cases s with ⟨-, hs⟩ | ⟨-, -, -, hs⟩ | ⟨-, -, r, rest, -, hs⟩ | ⟨-, hp, hs⟩ | ⟨-, hp, hs⟩ <;>
    obtain rfl := Host.Outcome.next.inj (hs.symm.trans ht)
  · exact State.inv_of_idle rfl
  · exact State.inv_clearResponse h
  · exact requestEffect_inv r s.takeRequest
  · exact encodeStep_inv (s := s.clearResponse) hp (State.inv_clearResponse h)
  · exact decodeStep_inv (s := s.clearResponse) hp (State.inv_clearResponse h)

/-- Settles O42: the engine is idle after reset. -/
theorem invariantHoldsAtReset : Obligations.InvariantHoldsAtReset := State.inv_of_idle rfl

/-- An act of the host moves no register and no phase, or it is a reset and leaves the engine idle. -/
theorem HostAct.apply_inv (a : HostAct) {s : State} (h : s.Inv) : (a.apply s).Inv := by
  cases a with
  | present r => exact h
  | answerRead x => exact h
  | answerWrite x => exact h
  | assertReset => exact State.inv_of_idle rfl
  | releaseReset => exact h
  | readResponse => exact h

/-- Settles O44, by induction on how the state is reached. -/
theorem everyReachableStateMeetsTheInvariant : Obligations.EveryReachableStateMeetsTheInvariant := by
  intro s reached
  induction reached with
  | reset => exact invariantHoldsAtReset
  | step _ stepped ih => exact stepKeepsTheInvariant _ _ ih stepped
  | act _ a ih => exact a.apply_inv ih

end Sys2Proof.Machine
end

section
/-! PROOF. The values of registers that no rule reads show nowhere (10_state.md R28): states that differ only in them
look the same to the host and step alike. -/

namespace Sys2Proof.Machine

/-! ### States that agree but for registers -/

/-- Two states agree but for registers when every other field agrees. -/
theorem State.withoutRegisters_eq_iff {s t : State} :
    s.withoutRegisters = t.withoutRegisters ↔
      s.phase = t.phase ∧ s.resetIn = t.resetIn ∧ s.response = t.response ∧ s.requests = t.requests ∧
      s.source = t.source ∧ s.sinkAnswers = t.sinkAnswers ∧ s.sink = t.sink ∧ s.responses = t.responses := by
  simp [State.withoutRegisters]

/-- In `IDLE` no register is live. -/
theorem State.sameLive_of_idle {s t : State} (hp : s.phase = .idle) (h : s.withoutRegisters = t.withoutRegisters) :
    s.SameLive t :=
  ⟨h, by simp [hp], by simp [hp], by simp [hp]⟩

/-- `WID`, `REM` and `IDX` are live while encoding. -/
theorem State.sameLive_of_encoding {s t : State} (hp : s.phase = .encBusy)
    (h : s.withoutRegisters = t.withoutRegisters) (hwid : s.wid.val = t.wid.val) (hidx : s.idx.val = t.idx.val)
    (hrem : s.rem.val = t.rem.val) : s.SameLive t :=
  ⟨h, fun _ => ⟨hwid, hidx⟩, fun _ => hrem, by simp [hp]⟩

/-- `WID`, `ACC` and `IDX` are live while decoding. -/
theorem State.sameLive_of_decoding {s t : State} (hp : s.phase = .decBusy)
    (h : s.withoutRegisters = t.withoutRegisters) (hwid : s.wid.val = t.wid.val) (hidx : s.idx.val = t.idx.val)
    (hacc : s.acc.val = t.acc.val) : s.SameLive t :=
  ⟨h, fun _ => ⟨hwid, hidx⟩, by simp [hp], fun _ => hacc⟩

/-- The host sees no register but through the byte offered while encoding. -/
theorem State.SameLive.obs_eq {s t : State} (h : s.SameLive t) : s.obs = t.obs := by
  obtain ⟨hframe, hbusy, henc, -⟩ := h
  obtain ⟨hphase, hreset, hresponse, -⟩ := State.withoutRegisters_eq_iff.1 hframe
  have offered : s.phase = .encBusy → offeredByte s.wid.val s = offeredByte t.wid.val t := fun hp => by
    rw [offeredByte, offeredByte, henc hp, (hbusy (by simp [hp])).1]
  by_cases hp : s.phase = .encBusy
  · simp [State.obs, ← hphase, hreset, hresponse, hp, offered hp]
  · simp [State.obs, ← hphase, hreset, hresponse, hp]

/-! ### The updates of a step keep the agreement

Clearing the registers commutes with every update of another field, so `congrArg` of the update is the agreement
after it. -/

/-- A response is delivered alike, and ends in `IDLE`. -/
theorem State.respond_sameLive {s t : State} (h : s.withoutRegisters = t.withoutRegisters) (st : Status)
    (res : Word64) (n : Nibble) (f : Option HostFailure) : (s.respond st res n f).SameLive (t.respond st res n f) :=
  State.sameLive_of_idle rfl (congrArg (State.respond · st res n f) h)

/-- The response port is emptied alike. -/
theorem State.clearResponse_sameLive {s t : State} (h : s.SameLive t) : s.clearResponse.SameLive t.clearResponse :=
  ⟨congrArg State.clearResponse h.1, h.2⟩

/-- A request leaves the port alike. -/
theorem State.takeRequest_withoutRegisters_eq {s t : State} (h : s.withoutRegisters = t.withoutRegisters) :
    s.takeRequest.withoutRegisters = t.takeRequest.withoutRegisters :=
  congrArg State.takeRequest h

/-- Reset leaves nothing of the registers. -/
theorem State.applyReset_sameLive {s t : State} (h : s.withoutRegisters = t.withoutRegisters) :
    s.applyReset.SameLive t.applyReset :=
  State.sameLive_of_idle rfl (congrArg (fun u => u.applyReset) h)

/-- The acceptance of an encode writes every register that is live after it. -/
theorem State.beginEncode_sameLive {s t : State} (h : s.withoutRegisters = t.withoutRegisters) (w : Width)
    (v : Word64) : (s.beginEncode w v).SameLive (t.beginEncode w v) :=
  State.sameLive_of_encoding rfl (congrArg (fun u : State => { u with phase := .encBusy }) h) rfl rfl rfl

/-- The acceptance of a decode writes every register that is live after it. -/
theorem State.beginDecode_sameLive {s t : State} (h : s.withoutRegisters = t.withoutRegisters) (w : Width) :
    (s.beginDecode w).SameLive (t.beginDecode w) :=
  State.sameLive_of_decoding rfl (congrArg (fun u : State => { u with phase := .decBusy }) h) rfl rfl rfl

/-- An encode that goes on writes `REM` and `IDX` and keeps `WID`. -/
theorem State.keepEncoding_sameLive {s t : State} (hp : s.phase = .encBusy)
    (h : s.withoutRegisters = t.withoutRegisters) (hwid : s.wid.val = t.wid.val) (v : Word64) (n : Nibble) :
    (s.keepEncoding v n).SameLive (t.keepEncoding v n) :=
  State.sameLive_of_encoding hp h hwid rfl rfl

/-- A decode that goes on writes `ACC` and `IDX` and keeps `WID`. -/
theorem State.keepDecoding_sameLive {s t : State} (hp : s.phase = .decBusy)
    (h : s.withoutRegisters = t.withoutRegisters) (hwid : s.wid.val = t.wid.val) (v : Word64) (n : Nibble) :
    (s.keepDecoding v n).SameLive (t.keepDecoding v n) :=
  State.sameLive_of_decoding hp h hwid rfl rfl

/-! ### What a step does keeps the agreement -/

/-- An accepted instruction reads no register. -/
theorem effect_sameLive (i : Instr) {s t : State} (h : s.withoutRegisters = t.withoutRegisters) :
    (effect i s).SameLive (effect i t) := by
  rcases effect_cases i with ⟨-, -, w, v, heq⟩ | ⟨-, -, w, heq⟩ | ⟨-, -, st, res, heq, -⟩ <;> rw [heq, heq]
  · exact State.beginEncode_sameLive h ..
  · exact State.beginDecode_sameLive h w
  · exact State.respond_sameLive h ..

/-- An accepted request, assigned or reserved, reads no register. -/
theorem requestEffect_sameLive (r : Request) {s t : State} (h : s.withoutRegisters = t.withoutRegisters) :
    (requestEffect r s).SameLive (requestEffect r t) := by
  unfold requestEffect
  cases decode r with
  | ok i => exact effect_sameLive i h
  | error e => exact State.respond_sameLive h ..

/-- An encode step reads `REM` and `IDX`, and no other register but the width it is given. -/
theorem encodeStep_sameLive (w : Width) {s t : State} (hp : s.phase = .encBusy) (h : s.SameLive t) :
    (encodeStep w s).SameLive (encodeStep w t) := by
  obtain ⟨hframe, hbusy, henc, -⟩ := id h
  obtain ⟨hwid, hidx⟩ := hbusy (by simp [hp])
  have hrem := henc hp
  obtain ⟨-, -, -, -, -, hanswers, -, -⟩ := State.withoutRegisters_eq_iff.1 hframe
  have hoffered : offeredByte w s = offeredByte w t := congrArg (fun x => pack (fromField w x)) hrem
  have answered (rest : List SinkAnswer) :=
    congrArg (fun u : State => { u with sinkAnswers := rest }) hframe
  have written (rest : List SinkAnswer) (b : Byte) :=
    congrArg (fun u : State => { u with sinkAnswers := rest, sink := u.sink ++ [b] }) hframe
  rcases encodeStep_cases w s with ⟨ha, hs⟩ | ⟨f, rest, ha, hs⟩ | ⟨rest, ha, hr, hs⟩ | ⟨rest, ha, hr, hs⟩ <;>
    rw [hs] <;> rw [hanswers] at ha
  · rwa [encodeStep_wait ha]
  · rw [encodeStep_fail ha, hidx]
    exact State.respond_sameLive (answered rest) ..
  · rw [encodeStep_last ha (hrem ▸ hr), hidx, hoffered]
    exact State.respond_sameLive (written rest _) ..
  · rw [encodeStep_more ha (hrem ▸ hr), hrem, hidx, hoffered]
    refine State.keepEncoding_sameLive ?_ ?_ ?_ _ _
    exacts [hp, written rest _, hwid]

/-- A decode step reads `ACC` and `IDX`, and no other register but the width it is given. -/
theorem decodeStep_sameLive (w : Width) {s t : State} (hp : s.phase = .decBusy) (h : s.SameLive t) :
    (decodeStep w s).SameLive (decodeStep w t) := by
  obtain ⟨hframe, hbusy, -, hdec⟩ := id h
  obtain ⟨hwid, hidx⟩ := hbusy (by simp [hp])
  have hacc := hdec hp
  obtain ⟨-, -, -, -, hsource, -, -, -⟩ := State.withoutRegisters_eq_iff.1 hframe
  have answered (rest : List SourceAnswer) := congrArg (fun u : State => { u with source := rest }) hframe
  rcases decodeStep_cases w s with ⟨ha, hs⟩ | ⟨f, rest, ha, hs⟩ | ⟨b, rest, ha, hv, hs⟩ |
    ⟨b, rest, ha, hv, hc, hs⟩ | ⟨b, rest, ha, hv, hc, hs⟩ <;> rw [hs] <;> rw [hsource] at ha
  · rwa [decodeStep_wait ha]
  · rw [decodeStep_fail ha, hidx]
    exact State.respond_sameLive (answered rest) ..
  · rw [decodeStep_invalid ha (hidx ▸ hv), hidx]
    exact State.respond_sameLive (answered rest) ..
  · rw [decodeStep_more ha (hidx ▸ hv) hc, hacc, hidx]
    refine State.keepDecoding_sameLive ?_ ?_ ?_ _ _
    exacts [hp, answered rest, hwid]
  · rw [decodeStep_last ha (hidx ▸ hv) hc, hacc, hidx]
    exact State.respond_sameLive (answered rest) ..

/-- Settles O47, by what a step does in each phase: what it reads is live there. -/
theorem deadRegistersNeverObserved : Obligations.DeadRegistersNeverObserved := by
  intro s t h
  refine ⟨h.obs_eq, ?_⟩
  obtain ⟨hphase, hreset, -, hrequests, -⟩ := State.withoutRegisters_eq_iff.1 h.1
  rcases step_cases s with ⟨hr, hs⟩ | ⟨hr, hp, hq, hs⟩ | ⟨hr, hp, r, rest, hq, hs⟩ | ⟨hr, hp, hs⟩ | ⟨hr, hp, hs⟩ <;>
    rw [hreset] at hr
  · exact ⟨_, _, hs, step_reset hr, State.applyReset_sameLive h.1⟩
  · exact ⟨_, _, hs, step_idle_nil hr (hphase ▸ hp) (hrequests ▸ hq), State.clearResponse_sameLive h⟩
  · exact ⟨_, _, hs, step_idle_cons hr (hphase ▸ hp) (hrequests ▸ hq),
      requestEffect_sameLive r (State.takeRequest_withoutRegisters_eq h.1)⟩
  · have hwid : s.wid.val = t.wid.val := (h.2.1 (by simp [hp])).1
    rw [hwid] at hs
    exact ⟨_, _, hs, step_encoding hr (hphase ▸ hp),
      encodeStep_sameLive _ (s := s.clearResponse) hp (State.clearResponse_sameLive h)⟩
  · have hwid : s.wid.val = t.wid.val := (h.2.1 (by simp [hp])).1
    rw [hwid] at hs
    exact ⟨_, _, hs, step_decoding hr (hphase ▸ hp),
      decodeStep_sameLive _ (s := s.clearResponse) hp (State.clearResponse_sameLive h)⟩

/-- Settles O46: taking the request and its instruction's effect read no register. -/
theorem noOperationDependsOnEarlierOnes : Obligations.NoOperationDependsOnEarlierOnes := by
  intro i s hp
  have hframe : s.withoutRegisters = s.withoutRegisters.withoutRegisters := rfl
  have h := effect_sameLive i (State.takeRequest_withoutRegisters_eq hframe)
  obtain ⟨-, -, -, -, -, -, -, hresponses⟩ := State.withoutRegisters_eq_iff.1 h.1
  exact ⟨_, _, exec_idle hp i, exec_idle (s := s.withoutRegisters) hp i, h, h.obs_eq, hresponses⟩

end Sys2Proof.Machine
end

section
/-! PROOF. The responses: which one a step can deliver, and that the port shows it exactly in the state after that
step. -/

namespace Sys2Proof.Machine

/-! ### Which response a step delivers -/

/-- `Answers s r`: a step of `s` may deliver `r`. One case per way an operation ends (60_exceptions.md R105). -/
inductive Answers (s : State) : Response → Prop where
  /-- What `IDLE` answers in the accepting step. -/
  | accepted {st : Status} {res : Word64} (hp : s.phase = .idle) (zero : st ≠ .ok → res = 0)
      (status : st = .ok ∨ st = .invalidEncoding ∨ st = .illegalCommand)
      (verdict : ∀ q rest k b, s.requests = q :: rest →
        decode q = .ok (.valid32 k b) ∨ decode q = .ok (.valid64 k b) → res = 0) :
      Answers s ⟨st, res, 0, none⟩
  /-- The sink failed. -/
  | sinkFailed (hp : s.phase = .encBusy) (f : HostFailure) : Answers s ⟨.sinkFailure, 0, s.idx.val, some f⟩
  /-- The last byte of an encode was acknowledged. -/
  | encoded (hp : s.phase = .encBusy) : Answers s ⟨.ok, 0, s.idx.val + 1, none⟩
  /-- The source failed. -/
  | sourceFailed (hp : s.phase = .decBusy) (f : HostFailure) : Answers s ⟨.sourceFailure, 0, s.idx.val, some f⟩
  /-- The validator rejected byte number `N`. -/
  | rejected (hp : s.phase = .decBusy) (last : (s.idx.val + 1).toNat = s.wid.val.maxBytes) :
      Answers s ⟨.invalidEncoding, 0, s.idx.val + 1, none⟩
  /-- The last byte of a decode was read. -/
  | decoded (hp : s.phase = .decBusy) (v : BitVec s.wid.val.bits) : Answers s ⟨.ok, toField v, s.idx.val + 1, none⟩

/-- From `s` to `t` no response is delivered and none is on the port of `t`, or exactly one is, and it is there. -/
abbrev Delivers (s t : State) : Prop :=
  (t.response = none ∧ t.responses = s.responses) ∨
  ∃ r, Answers s r ∧ t.response = some r ∧ t.responses = s.responses ++ [r]

/-- `VALID` answers with its status alone (40_primitives.md R67). -/
theorem validEffect_res {w : Width} {k : Nibble} {b : Byte} {s : State} {st : Status} {res : Word64} {n : Nibble}
    {f : Option HostFailure} (h : validEffect w k b s = s.respond st res n f) : res = 0 := by
  obtain ⟨st', heq, -⟩ := validEffect_responds w k b
  have port := Option.some.inj (congrArg State.response ((heq s).symm.trans h))
  exact (congrArg Response.res port).symm

/-- What an accepted request delivers. -/
theorem requestEffect_delivers {s : State} {q : Request} {rest : List Request} (hp : s.phase = .idle)
    (hq : s.requests = q :: rest) : Delivers s (requestEffect q s.takeRequest) := by
  unfold requestEffect
  cases hd : decode q with
  | error e => exact .inr ⟨_, .accepted hp (by simp) (by simp) (by simp), rfl, rfl⟩
  | ok i =>
    rcases effect_cases i with ⟨-, -, w, v, heq⟩ | ⟨-, -, w, heq⟩ | ⟨-, -, st, res, heq, zero, status⟩ <;>
      simp only [heq]
    · exact .inl ⟨rfl, rfl⟩
    · exact .inl ⟨rfl, rfl⟩
    · have verdict (q' rest' k b) (hq' : s.requests = q' :: rest')
          (hi : decode q' = .ok (.valid32 k b) ∨ decode q' = .ok (.valid64 k b)) : res = 0 := by
        obtain ⟨rfl, -⟩ := List.cons.inj (hq.symm.trans hq')
        rw [hd] at hi
        rcases hi with hi | hi <;> cases hi <;> exact validEffect_res (heq s)
      exact .inr ⟨_, .accepted hp zero status verdict, rfl, rfl⟩

/-- What a step of an encode delivers. -/
theorem step_encoding_delivers {s t : State} (h : s.resetIn = false) (hp : s.phase = .encBusy)
    (ht : step s = .next t) : Delivers s t := by
  rcases step_encoding_cases h hp with ⟨-, hs⟩ | ⟨f, rest, -, hs⟩ | ⟨rest, -, -, hs⟩ | ⟨rest, -, -, hs⟩ <;>
    obtain rfl := Host.Outcome.next.inj (hs.symm.trans ht)
  · exact .inl ⟨rfl, rfl⟩
  · exact .inr ⟨_, .sinkFailed hp f, rfl, rfl⟩
  · exact .inr ⟨_, .encoded hp, rfl, rfl⟩
  · exact .inl ⟨rfl, rfl⟩

/-- What a step of a decode delivers. -/
theorem step_decoding_delivers {s t : State} (h : s.resetIn = false) (hp : s.phase = .decBusy)
    (ht : step s = .next t) : Delivers s t := by
  rcases step_decoding_cases h hp with ⟨-, hs⟩ | ⟨f, rest, -, hs⟩ | ⟨b, rest, -, hv, hs⟩ |
    ⟨b, rest, -, -, -, hs⟩ | ⟨b, rest, -, -, -, hs⟩ <;> obtain rfl := Host.Outcome.next.inj (hs.symm.trans ht)
  · exact .inl ⟨rfl, rfl⟩
  · exact .inr ⟨_, .sourceFailed hp f, rfl, rfl⟩
  · exact .inr ⟨_, .rejected hp ((valid_eq_false_iff ..).1 hv).1, rfl, rfl⟩
  · exact .inl ⟨rfl, rfl⟩
  · exact .inr ⟨_, .decoded hp _, rfl, rfl⟩

/-- What a step delivers, said once for every step. -/
theorem step_delivers {s t : State} (ht : step s = .next t) : Delivers s t := by
  rcases step_cases s with ⟨-, hs⟩ | ⟨-, -, -, hs⟩ | ⟨-, hp, q, rest, hq, hs⟩ | ⟨h, hp, -⟩ | ⟨h, hp, -⟩
  · obtain rfl := Host.Outcome.next.inj (hs.symm.trans ht)
    exact .inl ⟨rfl, rfl⟩
  · obtain rfl := Host.Outcome.next.inj (hs.symm.trans ht)
    exact .inl ⟨rfl, rfl⟩
  · obtain rfl := Host.Outcome.next.inj (hs.symm.trans ht)
    exact requestEffect_delivers hp hq
  · exact step_encoding_delivers h hp ht
  · exact step_decoding_delivers h hp ht

/-- The response a step added to the record is one the step may deliver. -/
theorem answers_of_step {s t : State} {r : Response} (ht : step s = .next t) (hr : t.responses = s.responses ++ [r]) :
    Answers s r := by
  rcases step_delivers ht with ⟨-, hnone⟩ | ⟨r', answers, -, hr'⟩
  · simp [hnone] at hr
  · obtain rfl : r' = r := by simpa [hr'] using hr
    exact answers

/-- Settles O51. -/
theorem aResponseIsNotHeldAfterItsStep : Obligations.AResponseIsNotHeldAfterItsStep :=
  fun _ _ ht => (step_delivers ht).imp_right fun ⟨r, _, port, record⟩ => ⟨r, port, record⟩

/-! ### The fields of a response -/

/-- The transfers of an operation that ended with `OK` are at least one and at most `N`. -/
theorem count_bounds {w : Width} {i : Nibble} (h : i.toNat ≤ w.maxBytes - 1) :
    1 ≤ (i + 1).toNat ∧ (i + 1).toNat ≤ w.maxBytes := by
  have := w.maxBytes_pos
  rw [idx_succ_toNat h]
  omega

/-- Settles O15, by the way the operation ended. -/
theorem responsesHaveTheFieldsOfTheirStatus : Obligations.ResponsesHaveTheFieldsOfTheirStatus := by
  intro s t r ht hr
  have index (h : s.Inv) : s.phase ≠ .idle → s.idx.val.toNat ≤ s.wid.val.maxBytes - 1 := h.1
  have count (h : s.Inv) (hp : s.phase ≠ .idle) := count_bounds (index h hp)
  cases answers_of_step ht hr with
  | accepted hp zero status verdict =>
    rcases status with rfl | rfl | rfl
    · simpa [hp] using verdict
    · simp [hp, zero]
    · simp [hp, zero]
  | sinkFailed hp f => simpa [hp] using index
  | encoded hp => simpa [hp] using count
  | sourceFailed hp f => simpa [hp] using index
  | rejected hp last => simpa [hp] using last
  | decoded hp v =>
    have width (hw : s.wid.val = .w32) : (toField v).toNat < 2 ^ 32 :=
      (toField_lt _ v).trans_eq (congrArg (2 ^ Width.bits ·) hw)
    simpa [hp] using And.intro width count

end Sys2Proof.Machine
end

section
/-! PROOF. What the acceptance of an instruction writes and what it leaves alone, the state right after reset, and what
the host's acts leave alone. -/

namespace Sys2Proof.Machine

/-! ### The acceptance of an instruction -/

/-- Settles O28: a busy engine holds the request and nothing changes; an idle one takes it off the port, and starts an
encode, starts a decode or responds. -/
theorem execLeavesEverythingElseUnchanged : Obligations.ExecLeavesEverythingElseUnchanged := by
  intro i s t ht
  by_cases hp : s.phase = .idle
  · obtain rfl := Host.Outcome.next.inj ((exec_idle hp i).symm.trans ht)
    rcases effect_cases i with ⟨he, hd, w, v, heq⟩ | ⟨he, hd, w, heq⟩ | ⟨he, hd, st, res, heq, -⟩
    · simp [heq, he, hd, hp]
    · simp [heq, he, hd, hp]
    · simp [heq, he, hd, hp]
  · obtain rfl := Host.Outcome.next.inj ((exec_busy hp i).symm.trans ht)
    simp [hp]

/-- Settles O27, by the command word of each codec request. -/
theorem widthIsLatchedFromTheCommandWord : Obligations.WidthIsLatchedFromTheCommandWord := by
  intro s t r i hp hd hcodec ht
  obtain rfl := Host.Outcome.next.inj ((exec_idle hp i).symm.trans ht)
  rcases decode_ok_cases hd with ⟨hc, rfl⟩ | ⟨hc, rfl⟩ | ⟨hc, rfl⟩ | ⟨hc, rfl⟩ | primitive
  · simp [effect, Request.w, hc]
  · simp [effect, Request.w, hc]
  · simp [effect, Request.w, hc]
  · simp [effect, Request.w, hc]
  · rcases primitive with ⟨-, rfl⟩ | ⟨-, rfl⟩ | ⟨-, rfl⟩ | ⟨-, rfl⟩ | ⟨-, rfl⟩ | ⟨-, rfl⟩ | ⟨-, rfl⟩ <;>
      simp [startsEncode, startsDecode] at hcodec

/-! ### Reset and the host -/

/-- Settles O1: the fields of the state after reset. -/
theorem resetLeavesIdleAndUnwritten : Obligations.ResetLeavesIdleAndUnwritten :=
  ⟨rfl, rfl, rfl, rfl, rfl, rfl, rfl, rfl⟩

/-- The host's acts but asserting reset leave the engine alone. -/
theorem HostAct.apply_keeps_engine {a : HostAct} (h : a ≠ .assertReset) (s : State) :
    (a.apply s).phase = s.phase ∧ (a.apply s).wid = s.wid ∧ (a.apply s).rem = s.rem ∧ (a.apply s).acc = s.acc ∧
      (a.apply s).idx = s.idx ∧ (a.apply s).response = s.response := by
  cases a with
  | assertReset => exact absurd rfl h
  | present | answerRead | answerWrite | releaseReset | readResponse => exact ⟨rfl, rfl, rfl, rfl, rfl, rfl⟩

/-- No act of the host moves what the block has sent out. -/
theorem HostAct.apply_keeps_records (a : HostAct) (s : State) :
    (a.apply s).sink = s.sink ∧ (a.apply s).responses = s.responses := by
  cases a <;> exact ⟨rfl, rfl⟩

/-- Settles O45. -/
theorem hostActsDoNotMoveTheEngine : Obligations.HostActsDoNotMoveTheEngine := by
  intro a s
  obtain ⟨hsink, hresponses⟩ := a.apply_keeps_records s
  refine ⟨hsink, hresponses, fun h => HostAct.apply_keeps_engine h s, ?_⟩
  rintro rfl
  exact ⟨rfl, rfl, rfl, rfl, rfl, rfl⟩

end Sys2Proof.Machine
end

section
/-! PROOF. The bytes of an encoding, one by one: byte number `k` packs what is left of the value after `k - 1` groups. -/

namespace Sys2Proof.Machine

/-- The packed byte's segment is the value's low group (40_primitives.md R63). -/
theorem seg_pack {n : Nat} (v : BitVec n) : seg (pack v) = v.setWidth 7 := by
  rw [← BitVec.toNat_inj, seg_toNat, pack_toNat, BitVec.toNat_setWidth]
  split <;> omega

/-- The low 7 bits of a byte are its segment. -/
theorem seg_getLsbD (b : Byte) {i : Nat} (hi : i < 7) : (seg b).getLsbD i = b.getLsbD i := by
  simp [seg, hi]

/-- The low 7 bits of a packed byte are the value's. -/
theorem pack_getLsbD {n : Nat} (v : BitVec n) {i : Nat} (hi : i < 7) : (pack v).getLsbD i = v.getLsbD i := by
  rw [← seg_getLsbD _ hi, seg_pack, BitVec.getLsbD_setWidth, decide_eq_true hi, Bool.true_and]

/-- The byte the encode loop emits in its round `j`, counted from 0, packs the value without its first `j` groups. -/
theorem eq_pack_of_encodeLoop_getElem? {n fuel : Nat} {r : BitVec n} {j : Nat} {b : Byte}
    (h : (encodeLoop fuel r)[j]? = some b) : b = pack (r >>> (7 * j)) := by
  induction fuel generalizing r j with
  | zero => simp [encodeLoop] at h
  | succ fuel ih =>
    cases j with
    | zero => simpa [encodeLoop] using h.symm
    | succ j =>
      by_cases last : r >>> 7 = 0
      · simp [encodeLoop_last fuel last] at h
      · rw [encodeLoop_more fuel last, List.getElem?_cons_succ] at h
        rw [ih h, ← BitVec.shiftRight_add, Nat.mul_succ, Nat.add_comm 7]

/-- Settles O32: the bits of the packed byte are those of the shifted value. -/
theorem encodedBytesCarryTheGroupsInOrder : Obligations.EncodedBytesCarryTheGroupsInOrder := by
  intro w v k b _ hb i hi
  rw [eq_pack_of_encodeLoop_getElem? hb, pack_getLsbD _ hi, BitVec.getLsbD_ushiftRight]

end Sys2Proof.Machine
end

section
/-! PROOF. Failure tokens are opaque (20_memory.md R36): renaming every token commutes with each operation of the state,
so with a step. -/

namespace Sys2Proof.Machine

section

variable (f : HostFailure → HostFailure) (s : State)

/-! ### The answers and the response -/

/-- The sink's next answer in the renamed state is the renamed one. -/
theorem State.rename_sinkAnswers_cons {s : State} {a : SinkAnswer} {rest : List SinkAnswer}
    (h : s.sinkAnswers = a :: rest) : (s.rename f).sinkAnswers = a.rename f :: rest.map (SinkAnswer.rename f) := by
  rw [State.rename, h, List.map_cons]

/-- The source's next answer in the renamed state is the renamed one. -/
theorem State.rename_source_cons {s : State} {a : SourceAnswer} {rest : List SourceAnswer}
    (h : s.source = a :: rest) : (s.rename f).source = a.rename f :: rest.map (SourceAnswer.rename f) := by
  rw [State.rename, h, List.map_cons]

/-- A response delivered takes its token renamed. -/
theorem State.rename_respond (st : Status) (res : Word64) (n : Nibble) (e : Option HostFailure) :
    (s.respond st res n e).rename f = (s.rename f).respond st res n (e.map f) := by
  simp [State.respond, State.rename, Response.rename]

/-! ### What a step does

Every other update of a step commutes with renaming by computation: it writes no field that holds a token, or empties
the response port. -/

/-- An accepted instruction meets no token. -/
theorem effect_rename (i : Instr) : effect i (s.rename f) = (effect i s).rename f := by
  rcases effect_cases i with ⟨-, -, w, v, heq⟩ | ⟨-, -, w, heq⟩ | ⟨-, -, st, res, heq, -⟩ <;> rw [heq, heq]
  · rfl
  · rfl
  · rw [State.rename_respond, Option.map_none]

/-- An accepted request, assigned or reserved, meets no token. -/
theorem requestEffect_rename (r : Request) : requestEffect r (s.rename f) = (requestEffect r s).rename f := by
  unfold requestEffect
  cases decode r with
  | ok i => exact effect_rename f s i
  | error e => simp [State.rename_respond]

/-- An encode step copies the sink's token into its response, and looks at no token. -/
theorem encodeStep_rename (w : Width) : encodeStep w (s.rename f) = (encodeStep w s).rename f := by
  rcases encodeStep_cases w s with ⟨ha, hs⟩ | ⟨e, rest, ha, hs⟩ | ⟨rest, ha, hr, hs⟩ | ⟨rest, ha, hr, hs⟩ <;> rw [hs]
  · exact encodeStep_wait (List.map_eq_nil_iff.2 ha)
  · rw [State.rename_respond]
    exact encodeStep_fail (State.rename_sinkAnswers_cons f ha)
  · rw [State.rename_respond]
    exact encodeStep_last (State.rename_sinkAnswers_cons f ha) hr
  · exact encodeStep_more (State.rename_sinkAnswers_cons f ha) hr

/-- A decode step copies the source's token into its response, and looks at no token. -/
theorem decodeStep_rename (w : Width) : decodeStep w (s.rename f) = (decodeStep w s).rename f := by
  rcases decodeStep_cases w s with ⟨ha, hs⟩ | ⟨e, rest, ha, hs⟩ | ⟨b, rest, ha, hv, hs⟩ |
    ⟨b, rest, ha, hv, hc, hs⟩ | ⟨b, rest, ha, hv, hc, hs⟩ <;> rw [hs]
  · exact decodeStep_wait (List.map_eq_nil_iff.2 ha)
  · rw [State.rename_respond]
    exact decodeStep_fail (State.rename_source_cons f ha)
  · rw [State.rename_respond]
    exact decodeStep_invalid (State.rename_source_cons f ha) hv
  · exact decodeStep_more (State.rename_source_cons f ha) hv hc
  · rw [State.rename_respond]
    exact decodeStep_last (State.rename_source_cons f ha) hv hc

end

/-- Settles O48, by what a step does in each phase: which case it is does not depend on a token. -/
theorem hostFailureIsOpaque : Obligations.HostFailureIsOpaque := by
  intro f s t ht
  rcases step_cases s with ⟨hr, hs⟩ | ⟨hr, hp, hq, hs⟩ | ⟨hr, hp, r, rest, hq, hs⟩ | ⟨hr, hp, hs⟩ | ⟨hr, hp, hs⟩ <;>
    obtain rfl := Host.Outcome.next.inj (hs.symm.trans ht)
  · exact step_reset (s := s.rename f) hr
  · exact step_idle_nil (s := s.rename f) hr hp hq
  · rw [← requestEffect_rename]
    exact step_idle_cons (s := s.rename f) hr hp hq
  · rw [← encodeStep_rename]
    exact step_encoding (s := s.rename f) hr hp
  · rw [← decodeStep_rename]
    exact step_decoding (s := s.rename f) hr hp

end Sys2Proof.Machine
end

section
/-! PROOF. Instances of a system: what is done at one leaves the others alone, and things done at two different ones
commute (20_memory.md R44, 60_exceptions.md R118). -/

namespace Sys2Proof.Machine

/-- Every state steps to a next state. -/
theorem exists_step_eq_next (s : State) : ∃ t, step s = .next t := by
  rcases step_cases s with ⟨-, hs⟩ | ⟨-, -, -, hs⟩ | ⟨-, -, r, rest, -, hs⟩ | ⟨-, -, hs⟩ | ⟨-, -, hs⟩ <;>
    exact ⟨_, hs⟩

/-! ### Replacing one instance's engine -/

@[simp] theorem System.setEngine_length (sys : System) (i : Nat) (inst : Instance) (t : State) :
    (sys.setEngine i inst t).instances.length = sys.instances.length := List.length_set

/-- Every other instance stays as it is. -/
theorem System.setEngine_getElem?_of_ne (sys : System) {i j : Nat} (hij : i ≠ j) (inst : Instance) (t : State) :
    (sys.setEngine i inst t).instances[j]? = sys.instances[j]? := List.getElem?_set_ne hij

/-- The engines of two different instances can be replaced in either order. -/
theorem System.setEngine_comm (sys : System) {i j : Nat} (hij : i ≠ j) (a b : Instance) (t u : State) :
    (sys.setEngine i a t).setEngine j b u = (sys.setEngine j b u).setEngine i a t := by
  simp only [System.setEngine, List.set_comm _ _ hij]

/-- The streams an instance is connected to do not depend on its engine. -/
theorem System.setEngine_exclusive {sys : System} {i : Nat} {inst : Instance} (hi : sys.instances[i]? = some inst)
    (t : State) : (sys.setEngine i inst t).exclusive = sys.exclusive := by
  have unchanged (g : Instance → Nat) (hg : g { inst with engine := t } = g inst) :
      (sys.setEngine i inst t).instances.map g = sys.instances.map g := by
    have at_i : (sys.instances.map g)[i]? = some (g inst) := by rw [List.getElem?_map, hi, Option.map_some]
    obtain ⟨hlt, hget⟩ := List.getElem?_eq_some_iff.1 at_i
    rw [System.setEngine, List.map_set, hg, ← hget, List.set_getElem_self]
  rw [System.exclusive, System.exclusive, unchanged _ rfl, unchanged _ rfl]

/-! ### Doing something at one instance -/

/-- What is done at an instance the system has replaces that instance's engine. -/
theorem System.atInstance_eq_next {sys : System} {i : Nat} {inst : Instance} {t : State}
    {op : State → Host.Outcome State Fault Refusal} (hx : sys.exclusive = true) (hi : sys.instances[i]? = some inst)
    (ht : op inst.engine = .next t) : sys.atInstance i op = .next (sys.setEngine i inst t) := by
  simp [System.atInstance, hx, hi, ht]

/-- What is done at one instance and then at another replaces both engines, each by what was done there. -/
theorem System.atInstance_setEngine {sys : System} {i j : Nat} {a b : Instance} {t u : State}
    {op : State → Host.Outcome State Fault Refusal} (hij : i ≠ j) (hx : sys.exclusive = true)
    (hi : sys.instances[i]? = some a) (hj : sys.instances[j]? = some b) (hu : op b.engine = .next u) :
    (sys.setEngine i a t).atInstance j op = .next ((sys.setEngine i a t).setEngine j b u) :=
  System.atInstance_eq_next ((System.setEngine_exclusive hi t).trans hx)
    ((sys.setEngine_getElem?_of_ne hij a t).trans hj) hu

/-- Settles O49: a step or an act replaces the engine of its own instance alone. -/
theorem instancesDoNotDisturbEachOther : Obligations.InstancesDoNotDisturbEachOther := by
  intro sys i j hx hij hilt hjlt
  have hi := List.getElem?_eq_getElem hilt
  have hj := List.getElem?_eq_getElem hjlt
  obtain ⟨t, ht⟩ := exists_step_eq_next sys.instances[i].engine
  obtain ⟨u, hu⟩ := exists_step_eq_next sys.instances[j].engine
  have keeps (t : State) : (sys.setEngine i sys.instances[i] t).exclusive = true :=
    (System.setEngine_exclusive hi t).trans hx
  refine ⟨⟨_, _, _, System.atInstance_eq_next hx hi ht, System.atInstance_eq_next hx hj hu,
    System.atInstance_setEngine hij hx hi hj hu, ?_, sys.setEngine_getElem?_of_ne hij _ t,
    sys.setEngine_getElem?_of_ne hij.symm _ u, sys.setEngine_length .., keeps t⟩, fun x => ?_⟩
  · rw [sys.setEngine_comm hij]
    exact System.atInstance_setEngine hij.symm hx hj hi ht
  · exact ⟨_, System.atInstance_eq_next hx hi rfl, sys.setEngine_getElem?_of_ne hij .., sys.setEngine_length ..,
      keeps _⟩

end Sys2Proof.Machine
end

section
/-! PROOF. Decoding and encoding: which command words are assigned, and that they agree with the encoder. -/

namespace Sys2Proof

/-! ### Which requests decode -/

/-- A request decodes exactly when its command word is one of the first eleven (30_encoding.md R53, R54). -/
theorem exists_decode_eq_ok_iff (r : Request) : (∃ i, decode r = .ok i) ↔ r.cmd.toNat < 0x0B := by
  obtain ⟨c, a, b, j⟩ := r
  rcases cmd_cases c with rfl | rfl | rfl | rfl | rfl | rfl | rfl | rfl | rfl | rfl | rfl | reserved
  case inr.inr.inr.inr.inr.inr.inr.inr.inr.inr.inr => simp [decode_reserved (r := ⟨c, a, b, j⟩) reserved, reserved]
  all_goals exact iff_of_true ⟨_, rfl⟩ (by simp)

/-- The first eleven command words in terms of their fields (30_encoding.md R51, R52). -/
theorem cmd_lt_iff_fields (r : Request) :
    r.cmd.toNat < 0x0B ↔ r.rsv = 0 ∧ (r.fn.toNat ≤ 4 ∨ (r.fn = 5 ∧ r.w = false)) := by
  have fields : ∀ c : Byte, c.toNat < 0x0B ↔
      c.extractLsb' 4 4 = 0 ∧
        ((c.extractLsb' 1 3).toNat ≤ 4 ∨ (c.extractLsb' 1 3 = 5 ∧ c.getLsbD 0 = false)) := by decide
  exact fields r.cmd

/-- Settles O6: the assigned words are the first eleven, and those are the ones with these fields. -/
theorem exactlyElevenCommandWordsAreAssigned : Obligations.ExactlyElevenCommandWordsAreAssigned :=
  fun r => (exists_decode_eq_ok_iff r).trans (cmd_lt_iff_fields r)

/-- Settles O4, row by row of the table. -/
theorem commandWordsDecodeAsTheTableSays : Obligations.CommandWordsDecodeAsTheTableSays :=
  ⟨decode_enc32 .., decode_enc64 .., decode_dec32 .., decode_dec64 .., decode_pack32 .., decode_pack64 ..,
    decode_place32 .., decode_place64 .., decode_valid32 .., decode_valid64 .., decode_cont ..,
    decode_reserved (by decide)⟩

/-! ### Decoding and encoding agree -/

/-- A 32-bit operand comes back from its 64-bit field. -/
theorem setWidth_low_word (v : Word32) : (v.setWidth 64).setWidth 32 = v := by
  rw [BitVec.setWidth_setWidth_of_le v (by decide), BitVec.setWidth_eq]

/-- Clearing `OPA[63:32]` leaves the 32-bit operand, zero-extended. -/
theorem and_low_word (a : Word64) : a &&& 0xFFFFFFFF#64 = (a.setWidth 32).setWidth 64 := by
  have mask : (0xFFFFFFFF#64).toNat = 2 ^ 32 - 1 := by decide
  rw [← BitVec.toNat_inj, BitVec.toNat_and, mask, Nat.and_two_pow_sub_one_eq_mod, BitVec.toNat_setWidth,
    BitVec.toNat_setWidth]
  omega

/-- The encoding of an instruction decodes to it. -/
theorem decode_encode (i : Instr) : decode (encode i) = .ok i := by
  cases i with
  | enc32 v => rw [encode, decode_enc32, setWidth_low_word]
  | pack32 v => rw [encode, decode_pack32, setWidth_low_word]
  | place32 acc j b => rw [encode, decode_place32, setWidth_low_word]
  | enc64 | dec32 | dec64 | pack64 | place64 | valid32 | valid64 | cont => rfl

/-- A request that decodes to an instruction is, with its ignored fields cleared, that instruction's encoding. -/
theorem canonical_eq_encode {r : Request} {i : Instr} (h : decode r = .ok i) : r.canonical = encode i := by
  obtain ⟨c, a, b, j⟩ := r
  rcases decode_ok_cases h with ⟨rfl, rfl⟩ | ⟨rfl, rfl⟩ | ⟨rfl, rfl⟩ | ⟨rfl, rfl⟩ | ⟨rfl, rfl⟩ | ⟨rfl, rfl⟩ |
    ⟨rfl, rfl⟩ | ⟨rfl, rfl⟩ | ⟨rfl, rfl⟩ | ⟨rfl, rfl⟩ | ⟨rfl, rfl⟩ <;>
    simp [encode, Request.canonical, Request.readOpa, Request.readOpb, Request.readOpi, Request.fn, Request.w,
      and_low_word]

/-- Clearing the ignored fields keeps the command word. -/
theorem Request.canonical_cmd (r : Request) : r.canonical.cmd = r.cmd := rfl

/-- A request whose canonical form is an encoding decodes: its command word is that of the encoding. -/
theorem exists_decode_of_canonical_eq_encode {r : Request} {i : Instr} (h : r.canonical = encode i) :
    ∃ i', decode r = .ok i' := by
  rw [exists_decode_eq_ok_iff, ← Request.canonical_cmd, h, ← exists_decode_eq_ok_iff]
  exact ⟨i, decode_encode i⟩

/-- No two instructions share an encoding. -/
theorem encode_injective : Function.Injective encode := by
  intro i i' h
  rw [← Except.ok.injEq (ε := DecodeError), ← decode_encode i, h, decode_encode i']

/-- Settles O5: what a request decodes to is the one instruction whose encoding is its canonical form. -/
theorem decodeAndEncodeAgree : Obligations.DecodeAndEncodeAgree := by
  refine fun i r => ⟨decode_encode i, canonical_eq_encode, fun h => ?_⟩
  obtain ⟨i', hi'⟩ := exists_decode_of_canonical_eq_encode h
  rw [hi', encode_injective ((canonical_eq_encode hi').symm.trans h)]

end Sys2Proof

namespace Sys2Proof.Machine

/-! ### The step that accepts a request -/

/-- A reserved command word is answered `ILLEGAL_COMMAND`, whatever the operand fields hold (30_encoding.md R54). -/
theorem requestEffect_reserved {r : Request} (h : 0x0B ≤ r.cmd.toNat) : requestEffect r = State.illegalCommand := by
  rw [requestEffect, decode_reserved h]

/-- An assigned command word runs its instruction. -/
theorem requestEffect_of_decode {r : Request} {i : Instr} (h : decode r = .ok i) : requestEffect r = effect i := by
  rw [requestEffect, h]

/-- Settles O7. -/
theorem reservedCommandIsAnsweredIllegal : Obligations.ReservedCommandIsAnsweredIllegal := by
  intro s r rest hreset hp hq reserved
  rw [step_idle_cons hreset hp hq, requestEffect_reserved reserved, State.illegalCommand_eq,
    State.takeRequest_respond]

/-- Settles O9: both are the acceptance of the request with the effect of `i`. -/
theorem stepRunsTheDecodedInstruction : Obligations.StepRunsTheDecodedInstruction := by
  intro s r rest i hreset hp hq hd
  rw [step_idle_cons hreset hp hq, requestEffect_of_decode hd, exec_idle hp]

/-- Settles O12. -/
theorem everyStateHasANextState : Obligations.EveryStateHasANextState := exists_step_eq_next

end Sys2Proof.Machine
end

section
/-! PROOF. The continuation bits of an encoded sequence, and the sequences a decode rejects. -/

namespace Sys2Proof.Machine

/-! ### Where an encoded sequence ends -/

/-- The packed byte of the last group does not continue. -/
theorem cont_pack_of_shift_eq_zero {n : Nat} {r : BitVec n} (last : r >>> 7 = 0) : cont (pack r) = false := by
  simpa [last] using cont_pack_iff r

/-- The rounds of the encode loop that suffice for a value emit bytes that continue, and then one that does not. -/
theorem encodeLoop_eq_append {n : Nat} (fuel : Nat) (r : BitVec n) (fits : r.toNat < 2 ^ (7 * (fuel + 1))) :
    ∃ front last, encodeLoop (fuel + 1) r = front ++ [last] ∧ (∀ b ∈ front, cont b = true) ∧ cont last = false ∧
      front.length ≤ fuel := by
  induction fuel generalizing r with
  | zero =>
    have last : r >>> 7 = 0 := (shift_eq_zero_iff r).2 fits
    exact ⟨[], pack r, encodeLoop_last 0 last, by simp, cont_pack_of_shift_eq_zero last, le_rfl⟩
  | succ fuel ih =>
    by_cases last : r >>> 7 = 0
    · exact ⟨[], pack r, encodeLoop_last _ last, by simp, cont_pack_of_shift_eq_zero last, Nat.zero_le _⟩
    · have fits' : (r >>> 7).toNat < 2 ^ (7 * (fuel + 1)) := by
        rw [Nat.mul_succ, pow_add] at fits
        rw [shift_toNat]
        exact Nat.div_lt_of_lt_mul ((Nat.mul_comm _ _).trans_gt fits)
      obtain ⟨front, b, heq, hfront, hb, hlen⟩ := ih (r >>> 7) fits'
      refine ⟨pack r :: front, b, ?_, ?_, hb, Nat.succ_le_succ hlen⟩
      · rw [encodeLoop_more _ last, heq, List.cons_append]
      · exact List.forall_mem_cons.2 ⟨(cont_pack_iff r).2 last, hfront⟩

/-- Settles O33: `N` rounds suffice for every value of the width. -/
theorem onlyTheLastEncodedByteHasNoContinuation : Obligations.OnlyTheLastEncodedByteHasNoContinuation := by
  intro w v
  obtain ⟨fuel, hN⟩ := Nat.exists_eq_succ_of_ne_zero w.maxBytes_pos.ne'
  have fits : v.toNat < 2 ^ (7 * (fuel + 1)) := by simpa only [hN] using value_lt_groups w v
  obtain ⟨front, last, heq, hfront, hlast, hlen⟩ := encodeLoop_eq_append fuel v fits
  refine ⟨front, last, ?_, hfront, hlast, ?_⟩
  · rw [encodeW, hN, heq]
  · rw [hN]
    exact Nat.succ_le_succ hlen

/-! ### Which sequences a decode rejects -/

/-- After `k` bytes, `source` goes on with bytes that continue up to byte number `N - 1`, and then with a byte number
`N` that has a bit of `MASK` (30_encoding.md R50). -/
def ReachesBadByte (w : Width) (k : Nat) (source : List SourceAnswer) : Prop :=
  ∃ (front : List Byte) (b : Byte) (tail : List SourceAnswer),
    source = front.map SourceAnswer.byte ++ .byte b :: tail ∧ k + front.length + 1 = w.maxBytes ∧
    (∀ x ∈ front, cont x = true) ∧ b &&& w.mask ≠ 0

/-- There is no bad byte without an answer. -/
theorem not_reachesBadByte_nil (w : Width) (k : Nat) : ¬ReachesBadByte w k [] := by
  rintro ⟨front, b, tail, heq, -⟩
  simp at heq

/-- There is no bad byte behind a failure. -/
theorem not_reachesBadByte_fail (w : Width) (k : Nat) (f : HostFailure) (rest : List SourceAnswer) :
    ¬ReachesBadByte w k (.fail f :: rest) := by
  rintro ⟨front, b, tail, heq, -⟩
  cases front <;> simp at heq

/-- The next byte is the bad one, which is when the validator rejects it, or it continues to the bad one. -/
theorem reachesBadByte_byte_iff (w : Width) (k : Nat) (b : Byte) (rest : List SourceAnswer) :
    ReachesBadByte w k (.byte b :: rest) ↔
      valid w (k + 1) b = false ∨ (cont b = true ∧ ReachesBadByte w (k + 1) rest) := by
  rw [valid_eq_false_iff]
  constructor
  · rintro ⟨front, bad, tail, heq, hlen, hfront, hbad⟩
    cases front with
    | nil =>
      obtain ⟨⟨rfl⟩, rfl⟩ := List.cons.inj heq
      exact .inl ⟨hlen, hbad⟩
    | cons x front =>
      obtain ⟨⟨rfl⟩, rfl⟩ := List.cons.inj heq
      obtain ⟨hx, hfront⟩ := List.forall_mem_cons.1 hfront
      refine .inr ⟨hx, front, bad, tail, rfl, ?_, hfront, hbad⟩
      rw [← hlen, List.length_cons]
      omega
  · rintro (⟨hlen, hbad⟩ | ⟨hb, front, bad, tail, rfl, hlen, hfront, hbad⟩)
    · exact ⟨[], b, rest, rfl, hlen, by simp, hbad⟩
    · refine ⟨b :: front, bad, tail, rfl, ?_, List.forall_mem_cons.2 ⟨hb, hfront⟩, hbad⟩
      rw [← hlen, List.length_cons]
      omega

/-- The decode loop at a byte the validator rejects. -/
theorem decodeLoop_invalid {w : Width} {acc : BitVec w.bits} {k : Nat} {b : Byte} (rest : List SourceAnswer)
    (hv : valid w (k + 1) b = false) : decodeLoop w acc k (.byte b :: rest) = .invalidEncoding (k + 1) := by
  simp [decodeLoop, hv]

/-- What the decode loop rejects, from any number of bytes on, with the count `N`. -/
theorem decodeLoop_eq_invalidEncoding_iff (w : Width) (acc : BitVec w.bits) (k n : Nat) (source : List SourceAnswer) :
    decodeLoop w acc k source = .invalidEncoding n ↔ n = w.maxBytes ∧ ReachesBadByte w k source := by
  induction source generalizing acc k with
  | nil => simp [decodeLoop, not_reachesBadByte_nil]
  | cons a rest ih =>
    cases a with
    | fail f => simp [decodeLoop, not_reachesBadByte_fail]
    | byte b =>
      rw [reachesBadByte_byte_iff]
      cases hv : valid w (k + 1) b
      · obtain ⟨hk, -⟩ := (valid_eq_false_iff w (k + 1) b).1 hv
        rw [decodeLoop_invalid rest hv, hk]
        simp [eq_comm (a := w.maxBytes)]
      · cases hc : cont b
        · simp [decodeLoop_last rest hv hc]
        · simp [decodeLoop_more rest hv hc, ih]

/-- Settles O35: a decode is the loop from no bytes on. -/
theorem decodeRejectsExactlyBadLastBytes : Obligations.DecodeRejectsExactlyBadLastBytes := by
  intro w source k
  simpa only [decodeW, ReachesBadByte, Nat.zero_add] using decodeLoop_eq_invalidEncoding_iff w 0 0 k source

end Sys2Proof.Machine
end

section
/-! PROOF. The primitive requests: the laws of placement and of the validator, and what `CONT`, `PACK`, `PLACE` and
`VALID` answer in `IDLE` (40_primitives.md). -/

namespace Sys2Proof.Machine

/-! ### The primitives as numbers and single bits -/

/-- A packed byte in its result field (40_primitives.md R62). -/
theorem toField_pack {n : Nat} (v : BitVec n) :
    toField (pack v) = BitVec.ofNat 64 (v.toNat % 128 + if v.toNat < 128 then 0 else 128) := by
  rw [← BitVec.toNat_inj, toField, BitVec.toNat_setWidth, pack_toNat, BitVec.toNat_ofNat]
  split <;> split <;> omega

/-- The segment as a mask of its byte (00_scope.md R7). -/
theorem seg_setWidth (b : Byte) (n : Nat) : (seg b).setWidth n = (b &&& 0x7F).setWidth n := by
  have masked : (seg b).toNat = (b &&& 0x7F).toNat := by revert b; decide
  rw [← BitVec.toNat_inj, BitVec.toNat_setWidth, BitVec.toNat_setWidth, masked]

/-- Placement in the words of 40_primitives.md R64. -/
theorem place_eq_or_shift {n : Nat} (acc : BitVec n) (j : Nat) (b : Byte) :
    place acc j b = acc ||| ((b &&& 0x7F).setWidth n <<< (7 * j)) := by
  rw [place, seg_setWidth]

/-- Placement bit by bit. -/
theorem place_getLsbD {n : Nat} (acc : BitVec n) (j : Nat) (b : Byte) {i : Nat} (hi : i < n) :
    (place acc j b).getLsbD i =
      (acc.getLsbD i || (decide (7 * j ≤ i ∧ i < 7 * j + 7) && b.getLsbD (i - 7 * j))) := by
  rw [place, BitVec.getLsbD_or, BitVec.getLsbD_shiftLeft, BitVec.getLsbD_setWidth, decide_eq_true hi, Bool.true_and,
    decide_eq_true (show i - 7 * j < n by omega), Bool.true_and]
  congr 1
  by_cases group : 7 * j ≤ i ∧ i < 7 * j + 7
  · rw [seg_getLsbD b (by omega)]
    simp [group]
  · rcases not_and_or.1 group with below | above
    · simp [below, Nat.lt_of_not_le below]
    · have past : (seg b).getLsbD (i - 7 * j) = false := BitVec.getLsbD_of_ge _ _ (by omega)
      simp [past, above]

/-- Of the byte it places, placement reads only the segment bits that fall within the width (40_primitives.md R65). -/
theorem place_and_of_covers {n j : Nat} {m : Byte} (covers : ∀ i < n - 7 * j, m.getLsbD i = true) (acc : BitVec n)
    (b : Byte) : place acc j b = place acc j (b &&& m) := by
  apply BitVec.eq_of_getLsbD_eq
  intro i hi
  rw [place_getLsbD acc j b hi, place_getLsbD acc j (b &&& m) hi]
  by_cases group : 7 * j ≤ i ∧ i < 7 * j + 7
  · rw [BitVec.getLsbD_and, covers (i - 7 * j) (by omega), Bool.and_true]
  · simp only [decide_eq_false group, Bool.false_and]

/-- Byte number `N` is valid exactly when it fits the bits that the groups before it leave (40_primitives.md R68). -/
theorem valid_last_iff (w : Width) (b : Byte) :
    valid w w.maxBytes b = true ↔ b.toNat < 2 ^ (w.bits - 7 * (w.maxBytes - 1)) := by
  rw [valid_iff, ← and_mask_eq_zero_iff]
  simp

/-- Settles O22. -/
theorem placementPutsTheSegmentAtItsGroup : Obligations.PlacementPutsTheSegmentAtItsGroup :=
  ⟨fun _ acc j b _ hi => place_getLsbD acc j b hi, place_and_of_covers (by decide), place_and_of_covers (by decide)⟩

/-- Settles O23: 4 bits are left for byte 5, and 1 bit for byte 10. -/
theorem validatorChecksOnlyTheLastByteNumber : Obligations.ValidatorChecksOnlyTheLastByteNumber :=
  ⟨fun b => (valid_last_iff .w32 b).trans Nat.lt_succ_iff, fun b => (valid_last_iff .w64 b).trans Nat.lt_succ_iff,
    fun _ _ b hk => valid_of_ne b hk⟩

/-! ### What the primitive requests answer -/

section
variable {s : State} (hp : s.phase = .idle)
include hp

/-- In `IDLE`, an instruction whose effect is a response is answered with it. -/
theorem exec_idle_of_respond {i : Instr} {st : Status} {res : Word64}
    (heq : ∀ t, effect i t = t.respond st res 0 none) : exec i s = .next (s.answeredWith ⟨st, res, 0, none⟩) := by
  rw [exec_idle hp, heq, State.takeRequest_respond]

/-- What `CONT` answers (40_primitives.md R61). -/
theorem exec_cont (b : Byte) :
    exec (.cont b) s = .next (s.answeredWith ⟨.ok, if cont b then 1 else 0, 0, none⟩) := by
  have field : toField (BitVec.ofBool (cont b)) = if cont b then 1 else 0 := by cases cont b <;> rfl
  exact field ▸ exec_idle_of_respond hp fun _ => rfl

/-- What `PACKW` answers (40_primitives.md R62). -/
theorem exec_packInstr (w : Width) (v : BitVec w.bits) :
    exec (packInstr w v) s = .next (s.answeredWith ⟨.ok, toField (pack v), 0, none⟩) := by
  cases w <;> exact exec_idle_of_respond hp fun _ => rfl

/-- What `PLACEW` answers (40_primitives.md R64). -/
theorem exec_placeInstr (w : Width) (acc : BitVec w.bits) (j : Nibble) (b : Byte) :
    exec (placeInstr w acc j b) s = .next (s.answeredWith
      (if j.toNat ≤ w.maxBytes - 1 then ⟨.ok, toField (place acc j.toNat b), 0, none⟩
      else ⟨.illegalCommand, 0, 0, none⟩)) := by
  have accepted : exec (placeInstr w acc j b) s = .next (placeEffect w acc j b s.takeRequest) := by
    cases w <;> exact exec_idle hp _
  rw [accepted, placeEffect]
  simp only [indexLegal_iff]
  split <;> rfl

/-- `VALIDW` and its effect. -/
theorem exec_validInstr (w : Width) (k : Nibble) (b : Byte) :
    exec (validInstr w k b) s = .next (validEffect w k b s.takeRequest) := by
  cases w <;> exact exec_idle hp _

/-- What `VALIDW` answers for a byte number of the width (40_primitives.md R67). -/
theorem exec_validInstr_legal {w : Width} {k : Nibble} (b : Byte) (legal : k.toNat ≠ 0 ∧ k.toNat ≤ w.maxBytes) :
    exec (validInstr w k b) s =
      .next (s.answeredWith ⟨if valid w k.toNat b then .ok else .invalidEncoding, 0, 0, none⟩) := by
  rw [exec_validInstr hp, validEffect, if_pos ((byteNumberLegal_iff w k).2 legal)]
  cases valid w k.toNat b <;> rfl

/-- What `VALIDW` answers for any other byte number (40_primitives.md R67). -/
theorem exec_validInstr_illegal {w : Width} {k : Nibble} (b : Byte)
    (illegal : ¬(k.toNat ≠ 0 ∧ k.toNat ≤ w.maxBytes)) :
    exec (validInstr w k b) s = .next (s.answeredWith ⟨.illegalCommand, 0, 0, none⟩) := by
  rw [exec_validInstr hp, validEffect, if_neg (mt (byteNumberLegal_iff w k).1 illegal), State.illegalCommand_eq,
    State.takeRequest_respond]

/-- What `VALIDW` answers, in the order of 40_primitives.md R67. -/
theorem exec_validInstr_answer (w : Width) (k : Nibble) (b : Byte) :
    exec (validInstr w k b) s = .next (s.answeredWith
      (if k.toNat = 0 ∨ w.maxBytes < k.toNat then ⟨.illegalCommand, 0, 0, none⟩
      else if k.toNat = w.maxBytes ∧ b &&& w.mask ≠ 0 then ⟨.invalidEncoding, 0, 0, none⟩
      else ⟨.ok, 0, 0, none⟩)) := by
  by_cases out : k.toNat = 0 ∨ w.maxBytes < k.toNat
  · rw [exec_validInstr_illegal hp b (by omega), if_pos out]
  · rw [exec_validInstr_legal hp b (by omega), if_neg out]
    by_cases bad : k.toNat = w.maxBytes ∧ b &&& w.mask ≠ 0
    · rw [if_neg (by simpa using (valid_eq_false_iff w k.toNat b).2 bad), if_pos bad]
    · rw [if_pos ((valid_iff w k.toNat b).2 bad), if_neg bad]

end

/-- Settles O17. -/
theorem contAnswersTheContinuationBit : Obligations.ContAnswersTheContinuationBit := by
  rintro s ⟨c, a, b, j⟩ hp rfl
  exact ⟨decode_cont a b j, by simpa only [cont_iff] using exec_cont hp b⟩

/-- Settles O18: both are `PACKW` at their width. -/
theorem packAnswersTheComposedByte : Obligations.PackAnswersTheComposedByte := by
  rintro s ⟨c, a, b, j⟩ hp
  refine ⟨?_, ?_⟩
  · rintro rfl
    exact ⟨decode_pack32 a b j, toField_pack (a.setWidth 32) ▸ exec_packInstr hp .w32 (a.setWidth 32)⟩
  · rintro rfl
    exact ⟨decode_pack64 a b j, toField_pack a ▸ exec_packInstr hp .w64 a⟩

/-- Settles O19: both are `PLACEW` at their width. -/
theorem placeAnswersTheNewAccumulator : Obligations.PlaceAnswersTheNewAccumulator := by
  rintro s ⟨c, a, b, j⟩ hp
  refine ⟨?_, ?_⟩
  · rintro rfl
    exact ⟨decode_place32 a b j,
      place_eq_or_shift (a.setWidth 32) j.toNat b ▸ exec_placeInstr hp .w32 (a.setWidth 32) j b⟩
  · rintro rfl
    have whole : toField (place a j.toNat b) = place a j.toNat b := BitVec.setWidth_eq _
    exact ⟨decode_place64 a b j,
      whole.trans (place_eq_or_shift a j.toNat b) ▸ exec_placeInstr hp .w64 a j b⟩

/-- Settles O20: both are `VALIDW` at their width. -/
theorem validAnswersTheVerdict : Obligations.ValidAnswersTheVerdict := by
  rintro s ⟨c, a, b, j⟩ hp
  refine ⟨?_, ?_⟩
  · rintro rfl
    exact ⟨decode_valid32 a b j, exec_validInstr_answer hp .w32 j b⟩
  · rintro rfl
    exact ⟨decode_valid64 a b j, exec_validInstr_answer hp .w64 j b⟩

end Sys2Proof.Machine
end

section
/-! PROOF. The codecs' steps are the primitives composed (40_primitives.md R63, R69). -/

namespace Sys2Proof.Machine

/-- A step in which the sink acknowledges writes the packed byte, and goes on exactly when that byte says so. -/
theorem step_encoding_ack {s : State} {rest : List SinkAnswer} (h : s.resetIn = false) (hp : s.phase = .encBusy)
    (ha : s.sinkAnswers = .ack :: rest) :
    ∃ t, step s = .next t ∧ t.sink = s.sink ++ [offeredByte s.wid.val s] ∧
      (t.phase = .encBusy ↔ cont (offeredByte s.wid.val s) = true) := by
  rw [offeredByte, cont_pack_iff]
  by_cases last : fromField s.wid.val s.rem.val >>> 7 = 0
  · exact ⟨_, step_encoding_last h hp ha last, rfl, by simp [last]⟩
  · exact ⟨_, step_encoding_more h hp ha last, rfl, iff_of_true hp last⟩

/-- A step that reads a byte, in the order of 60_exceptions.md R112: the validator, then the continuation bit. -/
theorem step_decoding_byte {s : State} {b : Byte} {rest : List SourceAnswer} (h : s.resetIn = false)
    (hp : s.phase = .decBusy) (hs : s.source = .byte b :: rest) :
    step s = .next
      (if valid s.wid.val (s.idx.val + 1).toNat b = false then
        ({ s with source := rest }).endedWith ⟨.invalidEncoding, 0, s.idx.val + 1, none⟩
      else if cont b = true then
        ({ s with source := rest, response := none }).keepDecoding
          (toField (place (fromField s.wid.val s.acc.val) s.idx.val.toNat b)) (s.idx.val + 1)
      else ({ s with source := rest }).endedWith
        ⟨.ok, toField (place (fromField s.wid.val s.acc.val) s.idx.val.toNat b), s.idx.val + 1, none⟩) := by
  cases hv : valid s.wid.val (s.idx.val + 1).toNat b
  · exact step_decoding_invalid h hp hs hv
  · cases hc : cont b
    · exact step_decoding_last h hp hs hv hc
    · exact step_decoding_more h hp hs hv hc

/-- Settles O21. -/
theorem packedByteContinuesExactlyWhenMoreRemains : Obligations.PackedByteContinuesExactlyWhenMoreRemains := by
  refine ⟨fun _ v => ⟨cont_pack_iff v, seg_pack v⟩, fun s rest h hp ha => ?_⟩
  obtain ⟨t, ht, sink, phase⟩ := step_encoding_ack h hp ha
  exact ⟨t, _, ht, sink, phase⟩

/-- Settles O29: the invariant makes the index and the byte number legal, so that `PLACE` and `VALID` answer. -/
theorem codecStepsAreThePrimitivesComposed : Obligations.CodecStepsAreThePrimitivesComposed := by
  rintro s p _ h rfl ⟨index, -⟩ idle
  refine ⟨fun hp rest ha => ?_, fun hp b rest hs => ?_⟩
  · obtain ⟨t, ht, sink, -⟩ := step_encoding_ack h hp ha
    exact ⟨t, _, _, ht, sink, exec_packInstr idle s.wid.val (fromField s.wid.val s.rem.val), rfl⟩
  · have legal : s.idx.val.toNat ≤ s.wid.val.maxBytes - 1 := index (by simp [hp])
    obtain ⟨pos, bound⟩ := count_bounds legal
    have placed := exec_placeInstr idle s.wid.val (fromField s.wid.val s.acc.val) s.idx.val b
    rw [if_pos legal] at placed
    refine ⟨_, _, _, _, _, _, placed, rfl,
      exec_validInstr_legal idle b ⟨by omega, bound⟩, rfl, ?_, exec_cont idle b, rfl, ?_⟩
    · split <;> simp
    · rw [step_decoding_byte h hp hs]
      cases valid s.wid.val (s.idx.val + 1).toNat b <;> cases cont b <;> rfl

end Sys2Proof.Machine
end

section
/-! PROOF. The codecs' acceptance, and their busy steps case by case (41_codec32.md R76, R80; 42_codec64.md R91,
R95). -/

namespace Sys2Proof.Machine

/-- Settles O24: in `IDLE` each codec request has the effect of its instruction. -/
theorem codecRequestsAreAcceptedInIdle : Obligations.CodecRequestsAreAcceptedInIdle := by
  rintro s ⟨c, a, b, j⟩ hp
  refine ⟨?_, ?_, ?_, ?_⟩
  · rintro rfl
    exact ⟨decode_enc32 a b j, exec_idle hp _⟩
  · rintro rfl
    have whole : toField a = a := BitVec.setWidth_eq a
    refine ⟨decode_enc64 a b j, ?_⟩
    rw [exec_idle hp, effect, whole]
    rfl
  · rintro rfl
    exact ⟨decode_dec32 a b j, exec_idle hp _⟩
  · rintro rfl
    exact ⟨decode_dec64 a b j, exec_idle hp _⟩

/-- Settles O25, by the sink's answer and what remains after the byte. -/
theorem encodeStepWritesOneByte : Obligations.EncodeStepWritesOneByte := by
  rintro s _ h hp rfl
  exact ⟨fun _ _ ha => step_encoding_fail h hp ha, fun _ ha last => step_encoding_last h hp ha last,
    fun _ ha more => step_encoding_more h hp ha more⟩

/-- Settles O26, by the source's answer, then the validator, then the continuation bit (60_exceptions.md R112). -/
theorem decodeStepReadsOneByte : Obligations.DecodeStepReadsOneByte := by
  rintro s _ h hp rfl
  refine ⟨fun _ _ hs => step_decoding_fail h hp hs,
    fun b _ hs => ⟨fun bad => ?_, fun good more => ?_, fun good last => ?_⟩⟩
  · exact step_decoding_invalid h hp hs ((valid_eq_false_iff ..).2 bad)
  · exact step_decoding_more h hp hs ((valid_iff ..).2 good) more
  · exact step_decoding_last h hp hs ((valid_iff ..).2 good) last

end Sys2Proof.Machine
end

section
/-! PROOF. How many bytes an encoding has, and the numbers that legal sequences spell (41_codec32.md R71 to R74, R83;
42_codec64.md R92, R93, R99). -/

namespace Sys2Proof.Machine

/-! ### The length of an encoded sequence -/

/-- One group more holds 128 times as many values. -/
theorem two_pow_group_succ (k : Nat) : 2 ^ (7 * (k + 1)) = 2 ^ (7 * k) * 128 := by
  rw [Nat.mul_succ, pow_add]
  norm_num

/-- The encode loop, given rounds enough for its value, emits at most `m` bytes exactly when `m` groups hold it. -/
theorem encodeLoop_length_le_iff {n : Nat} (fuel : Nat) (r : BitVec n) (fits : r.toNat < 2 ^ (7 * (fuel + 1)))
    (m : Nat) :
    (encodeLoop (fuel + 1) r).length ≤ m + 1 ↔ r.toNat < 2 ^ (7 * (m + 1)) := by
  induction fuel generalizing r m with
  | zero =>
    rw [encodeLoop_last 0 ((shift_eq_zero_iff r).2 fits), List.length_singleton]
    exact iff_of_true (Nat.le_add_left 1 m) (fits.trans_le (Nat.pow_le_pow_right (by norm_num) (by omega)))
  | succ fuel ih =>
    by_cases last : r >>> 7 = 0
    · rw [encodeLoop_last _ last, List.length_singleton]
      refine iff_of_true (Nat.le_add_left 1 m) (((shift_eq_zero_iff r).1 last).trans_le ?_)
      rw [two_pow_group_succ]
      exact Nat.le_mul_of_pos_left _ (Nat.two_pow_pos _)
    · have fits' : (r >>> 7).toNat < 2 ^ (7 * (fuel + 1)) := by
        rw [shift_toNat, Nat.div_lt_iff_lt_mul (by norm_num), ← two_pow_group_succ]
        exact fits
      rw [encodeLoop_more _ last, List.length_cons, Nat.add_le_add_iff_right, two_pow_group_succ,
        ← Nat.div_lt_iff_lt_mul (by norm_num), ← shift_toNat]
      cases m with
      | zero =>
        have emits : 0 < (encodeLoop (fuel + 1) (r >>> 7)).length := Nat.succ_pos _
        have remains : 0 < (r >>> 7).toNat := Nat.pos_of_ne_zero fun h => last (BitVec.eq_of_toNat_eq h)
        exact iff_of_false (by omega) (by omega)
      | succ m => exact ih _ fits' m

/-- An encoding has at most `m` bytes exactly when `m` groups hold the value (41_codec32.md R71, 42_codec64.md R92). -/
theorem encodeW_length_le_iff {w : Width} {v : BitVec w.bits} {m : Nat} (hm : 1 ≤ m) :
    (encodeW w v).length ≤ m ↔ v.toNat < 2 ^ (7 * m) := by
  obtain ⟨fuel, hN⟩ := Nat.exists_eq_succ_of_ne_zero w.maxBytes_pos.ne'
  obtain ⟨m, rfl⟩ := Nat.exists_eq_add_of_le' hm
  rw [encodeW, hN]
  exact encodeLoop_length_le_iff fuel v (by simpa only [hN] using value_lt_groups w v) m

/-- An encoding has a byte. -/
theorem encodeW_length_pos (w : Width) (v : BitVec w.bits) : 1 ≤ (encodeW w v).length := by
  cases w <;> exact Nat.succ_pos _

/-- An encoding has at most `N` bytes (41_codec32.md R74). -/
theorem encodeW_length_le (w : Width) (v : BitVec w.bits) : (encodeW w v).length ≤ w.maxBytes :=
  (encodeW_length_le_iff w.maxBytes_pos).2 (value_lt_groups w v)

/-- Settles O30: each clause is the bound at one number of bytes; for the closed form, `Nat.size` is the least exponent
of 2 above the value. -/
theorem encodedLengthIsTheLeastThatFits : Obligations.EncodedLengthIsTheLeastThatFits := by
  intro w v
  have pos := encodeW_length_pos w v
  refine ⟨pos, encodeW_length_le w v, (encodeW_length_le_iff pos).1 le_rfl,
    fun m hm fits => (encodeW_length_le_iff hm).2 fits, eq_of_forall_ge_iff fun m => ?_⟩
  rcases Nat.eq_zero_or_pos m with rfl | hm
  · omega
  · rw [encodeW_length_le_iff hm, ← Nat.size_le]
    omega

/-! ### The shortest and the longest sequences -/

/-- The bytes of an encoding, one by one: byte number `m + 1` packs the value without its first `m` groups. -/
theorem encodeW_getElem {w : Width} {v : BitVec w.bits} {m : Nat} (hm : m < (encodeW w v).length) :
    (encodeW w v)[m] = pack (v >>> (7 * m)) :=
  eq_pack_of_encodeLoop_getElem? (List.getElem?_eq_getElem hm)

/-- A value with its top bit set needs every group (41_codec32.md R73, 42_codec64.md R93). -/
theorem encodeW_length_of_msb {w : Width} {v : BitVec w.bits} (negative : 2 ^ (w.bits - 1) ≤ v.toNat) :
    (encodeW w v).length = w.maxBytes := by
  refine le_antisymm (encodeW_length_le w v) (Nat.le_of_pred_lt (not_le.1 fun short => ?_))
  have hm : 1 ≤ w.maxBytes - 1 := by cases w <;> decide
  have narrow : 2 ^ (7 * (w.maxBytes - 1)) ≤ 2 ^ (w.bits - 1) := by cases w <;> decide
  have := (encodeW_length_le_iff hm).1 short
  omega

/-- The last byte of a longest encoding is what the groups before it leave of the value. -/
theorem encodeW_last_of_length {w : Width} {v : BitVec w.bits} (longest : (encodeW w v).length = w.maxBytes) :
    ∃ b, (encodeW w v)[w.maxBytes - 1]? = some b ∧ b.toNat = v.toNat / 2 ^ (7 * (w.maxBytes - 1)) := by
  have hm : w.maxBytes - 1 < (encodeW w v).length := by have := w.maxBytes_pos; omega
  have small : (v >>> (7 * (w.maxBytes - 1))) >>> 7 = 0 := by
    rw [shift_eq_zero_iff, BitVec.toNat_ushiftRight, Nat.shiftRight_eq_div_pow,
      Nat.div_lt_iff_lt_mul (Nat.two_pow_pos _)]
    refine v.isLt.trans_le ?_
    cases w <;> decide
  refine ⟨_, List.getElem?_eq_getElem hm, ?_⟩
  rw [encodeW_getElem, pack_toNat_of_shift_eq_zero small, BitVec.toNat_ushiftRight, Nat.shiftRight_eq_div_pow]

/-- Settles O31: a negative value leaves its top bits, from bit 28 or from bit 63 on, for byte number `N`. -/
theorem zeroIsShortestAndNegativesAreLongest : Obligations.ZeroIsShortestAndNegativesAreLongest := by
  refine ⟨by decide, by decide, fun v hv => ?_, fun v hv => ?_⟩
  · have negative : 2 ^ 31 ≤ v.toNat := Nat.ge_two_pow_of_testBit hv
    have longest := encodeW_length_of_msb (w := .w32) negative
    obtain ⟨b, hb, value⟩ : ∃ b, (encodeW .w32 v)[4]? = some b ∧ b.toNat = v.toNat / 2 ^ 28 :=
      encodeW_last_of_length longest
    have below := v.isLt
    have top : (v.extractLsb' 28 4).toNat = v.toNat / 2 ^ 28 := by
      rw [BitVec.extractLsb'_toNat, Nat.shiftRight_eq_div_pow]
      omega
    have byte : b = (v.extractLsb' 28 4).setWidth 8 := by
      rw [← BitVec.toNat_inj, value, BitVec.toNat_setWidth, top]
      omega
    exact ⟨longest, byte ▸ hb, by omega, by omega⟩
  · have negative : 2 ^ 63 ≤ v.toNat := Nat.ge_two_pow_of_testBit hv
    have longest := encodeW_length_of_msb (w := .w64) negative
    obtain ⟨b, hb, value⟩ : ∃ b, (encodeW .w64 v)[9]? = some b ∧ b.toNat = v.toNat / 2 ^ 63 :=
      encodeW_last_of_length longest
    have byte : b = 0x01 := by
      have below := v.isLt
      rw [← BitVec.toNat_inj, value, show (0x01 : Byte).toNat = 1 from rfl]
      omega
    exact ⟨longest, byte ▸ hb⟩

/-! ### The number a sequence spells -/

/-- The number whose 7-bit groups are those of the bytes, least significant first (30_encoding.md R47). -/
def spelled (bytes : List Byte) : Nat := bytes.foldr (fun b u => b.toNat % 128 + 128 * u) 0

@[simp] theorem spelled_nil : spelled [] = 0 := rfl

@[simp] theorem spelled_cons (b : Byte) (bytes : List Byte) :
    spelled (b :: bytes) = b.toNat % 128 + 128 * spelled bytes := rfl

/-- Before every byte of a sequence there is room for a bit of the value (00_scope.md R7). -/
theorem groups_lt_bits {w : Width} {k : Nat} (before : k < w.maxBytes) : 7 * k < w.bits := by
  cases w
  · rw [Width.maxBytes_w32] at before; rw [Width.bits_w32]; omega
  · rw [Width.maxBytes_w64] at before; rw [Width.bits_w64]; omega

/-- The last byte of a legal sequence has no bits beyond those that the groups before it leave (30_encoding.md R49). -/
theorem last_group_lt {w : Width} {last : Byte} {k : Nat} (count : k + 1 ≤ w.maxBytes)
    (legal : k + 1 = w.maxBytes → last &&& w.mask = 0) : last.toNat % 128 < 2 ^ (w.bits - 7 * k) := by
  rcases count.eq_or_lt with hN | before
  · obtain rfl : k = w.maxBytes - 1 := by omega
    exact (Nat.mod_le _ _).trans_lt ((and_mask_eq_zero_iff w last).1 (legal hN))
  · have room : 7 ≤ w.bits - 7 * k := by have := groups_lt_bits before; omega
    exact (Nat.mod_lt _ (by norm_num)).trans_le (Nat.pow_le_pow_right (by norm_num : 0 < 2) room)

/-- Groups before the last, and a last one of `a` bits, spell a number of the bits they have together. -/
theorem spelled_append_lt {last : Byte} {a : Nat} (small : last.toNat % 128 < 2 ^ a) (front : List Byte) :
    spelled (front ++ [last]) < 2 ^ (7 * front.length + a) := by
  induction front with
  | nil => simpa using small
  | cons b front ih =>
    have weight : 2 ^ (7 * (front.length + 1) + a) = 128 * 2 ^ (7 * front.length + a) := by
      rw [Nat.mul_succ, Nat.add_right_comm, pow_add, Nat.mul_comm]; norm_num
    rw [List.cons_append, spelled_cons, List.length_cons, weight]
    omega

/-- A legal sequence spells a number of the width: nothing is lost (41_codec32.md R84, 42_codec64.md R100). -/
theorem spelled_lt {w : Width} {front : List Byte} {last : Byte} (count : front.length + 1 ≤ w.maxBytes)
    (legal : front.length + 1 = w.maxBytes → last &&& w.mask = 0) : spelled (front ++ [last]) < 2 ^ w.bits := by
  have room : 7 * front.length ≤ w.bits := (groups_lt_bits count).le
  simpa [room] using spelled_append_lt (last_group_lt count legal) front

/-- Placing the next group of a value above the groups read so far leaves the rest of the value to be read. -/
theorem place_spells {w : Width} {v acc : BitVec w.bits} {b : Byte} {k u : Nat} (below : acc.toNat < 2 ^ (7 * k))
    (spells : v.toNat = acc.toNat + 2 ^ (7 * k) * (b.toNat % 128 + 128 * u)) :
    (place acc k b).toNat < 2 ^ (7 * (k + 1)) ∧ v.toNat = (place acc k b).toNat + 2 ^ (7 * (k + 1)) * u := by
  have fits : b.toNat % 128 * 2 ^ (7 * k) < 2 ^ w.bits := by
    refine lt_of_le_of_lt ?_ (lt_two_pow_of_toNat_eq_add spells)
    rw [Nat.mul_comm]
    exact Nat.mul_le_mul_left _ (Nat.le_add_right _ _)
  have room : 2 ^ (7 * k) * (b.toNat % 128 + 1) ≤ 2 ^ (7 * k) * 128 := Nat.mul_le_mul_left _ (by omega)
  rw [place_toNat acc k b below fits, two_pow_group_succ, spells]
  constructor
  · rw [Nat.mul_succ] at room
    omega
  · ring

/-- The decode loop on a legal sequence. `spells` is the invariant: the accumulator and the bytes to come, at their
weight, make up the value. -/
theorem decodeLoop_of_spells {w : Width} {v : BitVec w.bits} {last : Byte} (tail : List SourceAnswer)
    (hlast : cont last = false) (front : List Byte) (hfront : ∀ b ∈ front, cont b = true) (acc : BitVec w.bits)
    (k : Nat) (count : k + front.length + 1 ≤ w.maxBytes)
    (legal : k + front.length + 1 = w.maxBytes → last &&& w.mask = 0)
    (below : acc.toNat < 2 ^ (7 * k)) (spells : v.toNat = acc.toNat + 2 ^ (7 * k) * spelled (front ++ [last])) :
    decodeLoop w acc k ((front ++ [last]).map .byte ++ tail) = .ok v (k + front.length + 1) := by
  induction front generalizing acc k with
  | nil =>
    have value : v = place acc k last := BitVec.eq_of_toNat_eq (by simpa using (place_spells below spells).2)
    have hv : valid w (k + 1) last = true := (valid_iff ..).2 fun ⟨hN, bad⟩ => bad (legal hN)
    exact value ▸ decodeLoop_last tail hv hlast
  | cons b front ih =>
    obtain ⟨hb, hfront⟩ := List.forall_mem_cons.1 hfront
    obtain ⟨below', spells'⟩ := place_spells below spells
    have hlen : k + (b :: front).length = k + 1 + front.length := by rw [List.length_cons]; omega
    rw [hlen] at count legal ⊢
    have hv : valid w (k + 1) b = true := valid_of_ne b (by omega)
    exact (decodeLoop_more _ hv hb).trans (ih hfront _ _ count legal below' spells')

/-- Settles O34: a decode is the loop from no bytes on. -/
theorem decodedValueIsWhatTheGroupsSpell : Obligations.DecodedValueIsWhatTheGroupsSpell := by
  intro w front last tail hfront hlast count legal
  have bound : spelled (front ++ [last]) < 2 ^ w.bits := spelled_lt count legal
  have value : (BitVec.ofNat w.bits (spelled (front ++ [last]))).toNat = spelled (front ++ [last]) :=
    by rw [BitVec.toNat_ofNat, Nat.mod_eq_of_lt bound]
  refine ⟨?_, bound⟩
  have loop := decodeLoop_of_spells tail hlast front hfront 0 0 (by rwa [Nat.zero_add]) (by rwa [Nat.zero_add])
    (by simp) (v := BitVec.ofNat w.bits (spelled (front ++ [last]))) (by simp [value])
  rwa [Nat.zero_add] at loop

end Sys2Proof.Machine
end

section
/-! PROOF. Whole encodes: the machine writes the bytes of `encode_W(v)` one a step (41_codec32.md R76, R77;
42_codec64.md R91). -/

namespace Sys2Proof.Machine

/-- `k` steps and then one more. -/
theorem run_snoc {k : Nat} {s t u : State} (hrun : run k s = .next t) (hstep : step t = .next u) :
    run (k + 1) s = .next u :=
  (run_add hrun).trans (run_succ hstep)

/-! ### An encode in progress -/

/-- `u` is `s` after accepting the encode of `v` and writing the first `m` of its bytes, with `answers` still
waiting. -/
structure EncodedSoFar (s : State) {w : Width} (v : BitVec w.bits) (m : Nat) (answers : List SinkAnswer) (u : State) :
    Prop where
  resetIn : u.resetIn = false
  phase : u.phase = .encBusy
  wid : u.wid.val = w
  rem : u.rem.val = toField (v >>> (7 * m))
  idx : u.idx.val = BitVec.ofNat 4 m
  sinkAnswers : u.sinkAnswers = answers
  sink : u.sink = s.sink ++ (encodeW w v).take m
  source : u.source = s.source
  requests : u.requests = s.requests.tail
  responses : u.responses = s.responses

/-- Nothing is left of the value after as many groups as it has bytes, and something is left before. -/
theorem shift_groups_eq_zero_iff {w : Width} (v : BitVec w.bits) (m : Nat) :
    v >>> (7 * m) >>> 7 = 0 ↔ (encodeW w v).length ≤ m + 1 := by
  rw [encodeW_length_le_iff (Nat.le_add_left 1 m), shift_eq_zero_iff, BitVec.toNat_ushiftRight,
    Nat.shiftRight_eq_div_pow, Nat.div_lt_iff_lt_mul (Nat.two_pow_pos _), two_pow_group_succ, Nat.mul_comm]

namespace EncodedSoFar

variable {s u : State} {w : Width} {v : BitVec w.bits} {m : Nat} {rest : List SinkAnswer}

/-- What the engine reads in `REM`. -/
theorem remaining (h : EncodedSoFar s v m rest u) : fromField w u.rem.val = v >>> (7 * m) := by
  rw [h.rem, fromField_toField]

/-- The byte the engine offers is the next one of the encoding. -/
theorem sink_offered (h : EncodedSoFar s v m rest u) (hm : m < (encodeW w v).length) :
    u.sink ++ [offeredByte w u] = s.sink ++ (encodeW w v).take (m + 1) := by
  rw [offeredByte, h.remaining, ← encodeW_getElem hm, h.sink, List.append_assoc, List.take_append_getElem hm]

/-- The step that writes a byte before the last. -/
theorem step_more (h : EncodedSoFar s v m (.ack :: rest) u) (hm : m + 1 < (encodeW w v).length) :
    ∃ t, step u = .next t ∧ EncodedSoFar s v (m + 1) rest t := by
  obtain ⟨hreset, hp, rfl, -, hidx, ha, -, hsource, hrequests, hresponses⟩ := id h
  have more : fromField u.wid.val u.rem.val >>> 7 ≠ 0 := by
    rw [h.remaining, ne_eq, shift_groups_eq_zero_iff]
    omega
  refine ⟨_, step_encoding_more hreset hp ha more, hreset, hp, rfl, ?_, ?_, rfl, h.sink_offered (by omega), hsource,
    hrequests, hresponses⟩
  · rw [h.remaining, ← BitVec.shiftRight_add]
    rfl
  · rw [hidx]
    exact (BitVec.ofNat_add m 1).symm

/-- The step that writes the last byte. -/
theorem step_last (h : EncodedSoFar s v m (.ack :: rest) u) (hm : m + 1 = (encodeW w v).length) :
    ∃ t, step u = .next t ∧ t.phase = .idle ∧ t.sink = s.sink ++ encodeW w v ∧ t.sinkAnswers = rest ∧
      t.source = s.source ∧ t.requests = s.requests.tail ∧
      t.response = some ⟨.ok, 0, BitVec.ofNat 4 (encodeW w v).length, none⟩ ∧
      t.responses = s.responses ++ [⟨.ok, 0, BitVec.ofNat 4 (encodeW w v).length, none⟩] := by
  obtain ⟨hreset, hp, rfl, -, hidx, ha, -, hsource, hrequests, hresponses⟩ := id h
  have last : fromField u.wid.val u.rem.val >>> 7 = 0 := by
    rw [h.remaining, shift_groups_eq_zero_iff]
    omega
  have count : u.idx.val + 1 = BitVec.ofNat 4 (encodeW u.wid.val v).length := by
    rw [hidx, ← hm]
    exact (BitVec.ofNat_add m 1).symm
  have written := h.sink_offered (by omega)
  rw [hm, List.take_length] at written
  refine ⟨_, step_encoding_last hreset hp ha last, rfl, written, rfl, hsource, hrequests, ?_, ?_⟩
  · rw [count]
    rfl
  · rw [count, State.respond_responses, ← hresponses]

end EncodedSoFar

/-- The run of an encode up to any byte but the last, when the writes before it are acknowledged. -/
theorem run_encode {s : State} {w : Width} {v : BitVec w.bits} {r : Request} {rest : List Request}
    (hreset : s.resetIn = false) (hp : s.phase = .idle) (hq : s.requests = r :: rest)
    (hd : decode r = .ok (encodeInstr w v)) (m : Nat) (hm : m < (encodeW w v).length) {later : List SinkAnswer}
    (ha : s.sinkAnswers = List.replicate m .ack ++ later) :
    ∃ u, run (1 + m) s = .next u ∧ EncodedSoFar s v m later u := by
  induction m generalizing later with
  | zero =>
    exact ⟨_, run_succ (step_accepts_encode hreset hp hq hd), hreset, rfl, rfl, rfl, rfl, ha, by simp, rfl, rfl, rfl⟩
  | succ m ih =>
    rw [List.replicate_succ', List.append_assoc] at ha
    obtain ⟨u, hrun, hu⟩ := ih (by omega) ha
    obtain ⟨t, hstep, ht⟩ := hu.step_more hm
    exact ⟨t, run_snoc hrun hstep, ht⟩

/-- Settles O36: the last byte is written in the step after the run up to it, and each shorter run has no response. -/
theorem encodeWritesExactlyItsSequence : Obligations.EncodeWritesExactlyItsSequence := by
  intro s w v r rest later hreset hp hq hd ha
  have before {m : Nat} (hm : m < (encodeW w v).length) :
      ∃ u, run (1 + m) s = .next u ∧
        EncodedSoFar s v m (List.replicate ((encodeW w v).length - m) .ack ++ later) u := by
    refine run_encode hreset hp hq hd m hm ?_
    rw [← List.append_assoc, List.replicate_append_replicate, Nat.add_sub_cancel' hm.le, ha]
  constructor
  · obtain ⟨n, hn⟩ := Nat.exists_eq_add_of_le' (encodeW_length_pos w v)
    obtain ⟨u, hrun, hu⟩ := before (m := n) (by omega)
    rw [hn, Nat.add_sub_cancel_left] at hu
    obtain ⟨t, hstep, hphase, hsink, hanswers, hsource, hrequests, hport, hrecord⟩ := hu.step_last hn.symm
    refine ⟨t, ?_, hphase, hsink, hanswers, hsource, by simpa [hq] using hrequests, hport, hrecord⟩
    rw [hn, ← Nat.add_assoc]
    exact run_snoc hrun hstep
  · intro m hm
    cases m with
    | zero => exact ⟨s, rfl, rfl, fun h => absurd rfl h⟩
    | succ m =>
      obtain ⟨u, hrun, hu⟩ := before (m := m) (by omega)
      exact ⟨u, by rwa [Nat.add_comm], hu.responses, fun _ => hu.phase⟩

end Sys2Proof.Machine
end

section
/-! PROOF. Whole decodes: the machine answers what `decode_W` returns, and takes the answers it read (41_codec32.md R78,
R80, R82; 42_codec64.md R94, R95, R98). -/

namespace Sys2Proof.Machine

/-! ### What a result of `decode_W` says of the machine -/

/-- The answers of the source a decode has taken when it has this result. -/
def DecodeResult.taken {n : Nat} : DecodeResult n → Nat
  | .ok _ k => k
  | .invalidEncoding k => k
  | .sourceFailure _ k => k + 1
  | .unanswered k => k

/-- The response to a decode with this result; none while the decode has not ended. -/
def DecodeResult.response {n : Nat} : DecodeResult n → Option Response
  | .ok v k => some ⟨.ok, toField v, BitVec.ofNat 4 k, none⟩
  | .invalidEncoding k => some ⟨.invalidEncoding, 0, BitVec.ofNat 4 k, none⟩
  | .sourceFailure f k => some ⟨.sourceFailure, 0, BitVec.ofNat 4 k, some f⟩
  | .unanswered _ => none

/-- `t` is `s` after taking `n` answers of the source, with what `response` says delivered. -/
structure DecodedTo (s : State) (n : Nat) (response : Option Response) (t : State) : Prop where
  phase : t.phase = if response.isSome then .idle else .decBusy
  source : t.source = s.source.drop n
  sink : t.sink = s.sink
  requests : t.requests = s.requests
  responses : t.responses = s.responses ++ response.toList

/-- A run that reads a byte and goes on has what the rest of it has. -/
theorem DecodedTo.of_more {s u t : State} {b : Byte} {n : Nat} {response : Option Response}
    (hs : s.source = .byte b :: u.source) (hsink : u.sink = s.sink) (hrequests : u.requests = s.requests)
    (hresponses : u.responses = s.responses) (h : DecodedTo u n response t) : DecodedTo s (n + 1) response t :=
  ⟨h.phase, by rw [hs, List.drop_succ_cons, h.source], h.sink.trans hsink, h.requests.trans hrequests,
    hresponses ▸ h.responses⟩

/-- A decode that waits for an answer has taken all there were. -/
theorem decodeLoop_eq_unanswered {w : Width} {acc : BitVec w.bits} {k n : Nat} {source : List SourceAnswer}
    (h : decodeLoop w acc k source = .unanswered n) : n = k + source.length := by
  induction source generalizing acc k with
  | nil => simpa [decodeLoop, eq_comm] using h
  | cons a rest ih =>
    cases a with
    | fail f => simp [decodeLoop] at h
    | byte b =>
      cases hv : valid w (k + 1) b
      · simp [decodeLoop_invalid rest hv] at h
      · cases hc : cont b
        · simp [decodeLoop_last rest hv hc] at h
        · rw [decodeLoop_more rest hv hc] at h
          rw [ih h, List.length_cons]
          omega

/-! ### The run of a decode -/

/-- A step that takes an answer and responds. -/
theorem decodedTo_respond {s : State} {a : SourceAnswer} {rest : List SourceAnswer} (hs : s.source = a :: rest)
    (st : Status) (res : Word64) (n : Nibble) (f : Option HostFailure) :
    DecodedTo s 1 (some ⟨st, res, n, f⟩) (({ s with source := rest }).respond st res n f) :=
  ⟨rfl, by simp [hs], rfl, rfl, rfl⟩

/-- The engine of `s` decodes at width `w`, has placed `k` bytes in `acc`, and `source` holds the answers to come. -/
structure DecodingAt (w : Width) (acc : BitVec w.bits) (k : Nat) (source : List SourceAnswer) (s : State) : Prop where
  resetIn : s.resetIn = false
  phase : s.phase = .decBusy
  wid : s.wid.val = w
  acc : fromField w s.acc.val = acc
  idx : s.idx.val.toNat = k
  source : s.source = source

/-- The step that reads a byte before the last. -/
theorem DecodingAt.step_more {w : Width} {acc : BitVec w.bits} {k : Nat} {b : Byte} {rest : List SourceAnswer}
    {s : State} (h : DecodingAt w acc k (.byte b :: rest) s) (hk : k ≤ w.maxBytes - 1)
    (hv : valid w (k + 1) b = true) (hc : cont b = true) :
    ∃ u, step s = .next u ∧ DecodingAt w (place acc k b) (k + 1) rest u ∧ u.sink = s.sink ∧
      u.requests = s.requests ∧ u.responses = s.responses := by
  obtain ⟨hreset, hp, rfl, rfl, rfl, hs⟩ := h
  have number := idx_succ_toNat hk
  exact ⟨_, step_decoding_more hreset hp hs (number ▸ hv) hc,
    ⟨hreset, hp, rfl, fromField_toField _ _, number, rfl⟩, rfl, rfl, rfl⟩

/-- The machine in `DEC_BUSY` does what the decode loop does. -/
theorem run_decoding {w : Width} {acc : BitVec w.bits} {k : Nat} {source : List SourceAnswer} {s : State}
    (h : DecodingAt w acc k source s) (hk : k ≤ w.maxBytes - 1) :
    ∃ n t, (decodeLoop w acc k source).taken = k + n ∧ run n s = .next t ∧
      DecodedTo s n (decodeLoop w acc k source).response t := by
  induction source generalizing s acc k with
  | nil => exact ⟨0, s, rfl, rfl, h.phase, rfl, rfl, rfl, (List.append_nil _).symm⟩
  | cons a rest ih =>
    obtain ⟨hreset, hp, rfl, rfl, rfl, hs⟩ := id h
    cases a with
    | fail f =>
      refine ⟨1, _, rfl, run_succ (step_decoding_fail hreset hp hs), ?_⟩
      rw [decodeLoop, DecodeResult.response, BitVec.ofNat_toNat, BitVec.setWidth_eq]
      exact decodedTo_respond hs ..
    | byte b =>
      have number : (s.idx.val + 1).toNat = s.idx.val.toNat + 1 := idx_succ_toNat hk
      have count : BitVec.ofNat 4 (s.idx.val.toNat + 1) = s.idx.val + 1 := by
        rw [← number, BitVec.ofNat_toNat, BitVec.setWidth_eq]
      cases hv : valid s.wid.val (s.idx.val.toNat + 1) b
      · rw [decodeLoop_invalid rest hv, DecodeResult.response, count]
        exact ⟨1, _, rfl, run_succ (step_decoding_invalid hreset hp hs (number ▸ hv)), decodedTo_respond hs ..⟩
      · cases hc : cont b
        · rw [decodeLoop_last rest hv hc, DecodeResult.response, count]
          exact ⟨1, _, rfl, run_succ (step_decoding_last hreset hp hs (number ▸ hv) hc), decodedTo_respond hs ..⟩
        · have notLast : s.idx.val.toNat + 1 ≠ s.wid.val.maxBytes := fun hN => by
            simp [cont_of_valid_last (hN ▸ hv)] at hc
          have hk' : s.idx.val.toNat + 1 ≤ s.wid.val.maxBytes - 1 := by
            have := s.wid.val.maxBytes_pos
            omega
          obtain ⟨u, hstep, hu, hsink, hrequests, hresponses⟩ := h.step_more hk hv hc
          obtain ⟨n, t, taken, hrun, ht⟩ := ih hu hk'
          rw [decodeLoop_more rest hv hc]
          exact ⟨n + 1, t, by omega, (run_succ hstep).trans hrun,
            .of_more (hu.source ▸ hs) hsink hrequests hresponses ht⟩

/-- The machine that accepts `DECW` does what `decode_W` does on the same source. -/
theorem run_decode {s : State} {w : Width} {r : Request} {rest : List Request} (hreset : s.resetIn = false)
    (hp : s.phase = .idle) (hq : s.requests = r :: rest) (hd : decode r = .ok (decodeInstr w)) :
    ∃ t, run (1 + (decodeW w s.source).taken) s = .next t ∧
      DecodedTo (s.takeRequest.beginDecode w) (decodeW w s.source).taken (decodeW w s.source).response t := by
  have start : DecodingAt w 0 0 s.source (s.takeRequest.beginDecode w) :=
    ⟨hreset, rfl, rfl, BitVec.setWidth_zero .., rfl, rfl⟩
  obtain ⟨n, t, taken, hrun, ht⟩ := run_decoding start (Nat.zero_le _)
  rw [Nat.zero_add] at taken
  rw [decodeW, taken]
  exact ⟨t, (run_add (run_succ (step_accepts_decode hreset hp hq hd))).trans hrun, ht⟩

/-- Settles O38, by the run of the decode; each result says how many answers it took and what is delivered. -/
theorem decodeAnswersWhatTheFunctionReturns : Obligations.DecodeAnswersWhatTheFunctionReturns := by
  intro s w r rest hreset hp hq hd
  obtain ⟨t, hrun, hphase, hsource, hsink, hrequests, hresponses⟩ := run_decode hreset hp hq hd
  have hrequests' : t.requests = rest := by simpa [hq] using hrequests
  refine ⟨fun v k result => ?_, fun k result => ?_, fun f k result => ?_, fun k result => ?_⟩ <;>
    rw [result] at hrun hphase hsource hresponses
  · exact ⟨t, hrun, hphase, hsource, hsink, hrequests', hresponses⟩
  · exact ⟨t, hrun, hphase, hsource, hsink, hrequests', hresponses⟩
  · refine ⟨t, ?_, hphase, hsource, hsink, hrequests', hresponses⟩
    rw [Nat.add_comm 2 k]
    rwa [Nat.add_comm] at hrun
  · have all : k = s.source.length := (decodeLoop_eq_unanswered result).trans (Nat.zero_add _)
    refine ⟨t, hrun, hphase, ?_, ?_⟩
    · rw [hsource, all]
      exact List.drop_length
    · rw [hresponses]
      exact List.append_nil _

/-- Settles O39: `decode_W` returns the value from the bytes of its encoding. -/
theorem decodeOfAnEncodingIsTheValue : Obligations.DecodeOfAnEncodingIsTheValue := by
  intro s w v r rest later hreset hp hq hd hs
  obtain ⟨answered, -⟩ := decodeAnswersWhatTheFunctionReturns s w r rest hreset hp hq hd
  obtain ⟨t, hrun, hphase, hsource, -, -, hresponses⟩ := answered v _ (hs ▸ decodeW_encodeW w v later)
  refine ⟨t, hrun, hphase, ?_, hresponses⟩
  rw [hsource, hs, List.drop_left' (List.length_map _)]

end Sys2Proof.Machine
end

section
/-! PROOF. Bounded liveness: each answered step of a busy engine ends its operation or brings `IDX` nearer to `N`
(41_codec32.md R74, R81; 70_reset_and_hazards.md R136). -/

namespace Sys2Proof.Machine

/-- The answers waiting for the transfers of the operation in progress. -/
def State.answersWaiting (s : State) : Nat :=
  match s.phase with
  | .idle => 0
  | .encBusy => s.sinkAnswers.length
  | .decBusy => s.source.length

theorem State.answersWaiting_idle {s : State} (hp : s.phase = .idle) : s.answersWaiting = 0 := by
  simp [State.answersWaiting, hp]

theorem State.answersWaiting_encoding {s : State} (hp : s.phase = .encBusy) :
    s.answersWaiting = s.sinkAnswers.length := by
  simp [State.answersWaiting, hp]

theorem State.answersWaiting_decoding {s : State} (hp : s.phase = .decBusy) : s.answersWaiting = s.source.length := by
  simp [State.answersWaiting, hp]

/-- From `s` to `t` the operation goes on: one answer is taken, `IDX` counts it, and no response is delivered. -/
structure GoesOn (s t : State) : Prop where
  resetIn : t.resetIn = s.resetIn
  phase : t.phase = s.phase
  wid : t.wid = s.wid
  idx : t.idx.val = s.idx.val + 1
  answers : s.answersWaiting = t.answersWaiting + 1
  responses : t.responses = s.responses

/-- From `s` to `t` the operation ends with a response. -/
def Ends (s t : State) : Prop := t.phase = .idle ∧ ∃ r, t.responses = s.responses ++ [r]

/-- An answered step of an encode ends it or goes on. -/
theorem step_encoding_answered {s : State} (h : s.resetIn = false) (hp : s.phase = .encBusy)
    (answered : 0 < s.answersWaiting) : ∃ t, step s = .next t ∧ (Ends s t ∨ GoesOn s t) := by
  rcases step_encoding_cases h hp with ⟨ha, -⟩ | ⟨f, rest, -, hs⟩ | ⟨rest, -, -, hs⟩ | ⟨rest, ha, -, hs⟩
  · simp [State.answersWaiting_encoding hp, ha] at answered
  · exact ⟨_, hs, .inl ⟨rfl, _, rfl⟩⟩
  · exact ⟨_, hs, .inl ⟨rfl, _, rfl⟩⟩
  · exact ⟨_, hs, .inr ⟨rfl, rfl, rfl, rfl, by simp [State.answersWaiting, hp, ha], rfl⟩⟩

/-- An answered step of a decode ends it or goes on. -/
theorem step_decoding_answered {s : State} (h : s.resetIn = false) (hp : s.phase = .decBusy)
    (answered : 0 < s.answersWaiting) : ∃ t, step s = .next t ∧ (Ends s t ∨ GoesOn s t) := by
  rcases step_decoding_cases h hp with ⟨hb, -⟩ | ⟨f, rest, -, hs⟩ | ⟨b, rest, -, -, hs⟩ |
    ⟨b, rest, hb, -, -, hs⟩ | ⟨b, rest, -, -, -, hs⟩
  · simp [State.answersWaiting_decoding hp, hb] at answered
  · exact ⟨_, hs, .inl ⟨rfl, _, rfl⟩⟩
  · exact ⟨_, hs, .inl ⟨rfl, _, rfl⟩⟩
  · exact ⟨_, hs, .inr ⟨rfl, rfl, rfl, rfl, by simp [State.answersWaiting, hp, hb], rfl⟩⟩
  · exact ⟨_, hs, .inl ⟨rfl, _, rfl⟩⟩

/-- An answered step of a busy engine ends its operation or goes on. -/
theorem step_answered {s : State} (h : s.resetIn = false) (answered : 0 < s.answersWaiting) :
    ∃ t, step s = .next t ∧ (Ends s t ∨ GoesOn s t) := by
  cases hp : s.phase
  case idle => exact absurd (State.answersWaiting_idle hp) answered.ne'
  case encBusy => exact step_encoding_answered h hp answered
  case decBusy => exact step_decoding_answered h hp answered

/-- An operation with at most `n` transfers to come, all of them answered, ends within `n` steps. -/
theorem run_answered (n : Nat) {s : State} (inv : s.Inv) (h : s.resetIn = false) (busy : s.phase ≠ .idle)
    (left : s.wid.val.maxBytes - s.idx.val.toNat ≤ n)
    (answered : s.wid.val.maxBytes - s.idx.val.toNat ≤ s.answersWaiting) :
    ∃ k t, 1 ≤ k ∧ k ≤ n ∧ run k s = .next t ∧ Ends s t := by
  induction n generalizing s with
  | zero =>
    have index := inv.1 busy
    have := s.wid.val.maxBytes_pos
    omega
  | succ n ih =>
    have index := inv.1 busy
    have := s.wid.val.maxBytes_pos
    obtain ⟨u, hstep, ends | goes⟩ := step_answered h (by omega)
    · exact ⟨1, u, le_rfl, Nat.le_add_left 1 n, run_succ hstep, ends⟩
    · have number : u.idx.val.toNat = s.idx.val.toNat + 1 := goes.idx ▸ idx_succ_toNat index
      have answers := goes.answers
      obtain ⟨k, t, pos, bound, hrun, hidle, r, hr⟩ := ih (stepKeepsTheInvariant s u inv hstep) (goes.resetIn.trans h)
        (goes.phase ▸ busy) (by rw [goes.wid, number]; omega) (by rw [goes.wid, number]; omega)
      exact ⟨k + 1, t, by omega, by omega, (run_succ hstep).trans hrun, hidle, r, goes.responses ▸ hr⟩

/-- Settles O41, with `N - IDX` for the transfers to come. -/
theorem answeredOperationsEndInTime : Obligations.AnsweredOperationsEndInTime := by
  intro s inv h busy encoding decoding
  have answered : s.wid.val.maxBytes - s.idx.val.toNat ≤ s.answersWaiting := by
    cases hp : s.phase
    case idle => exact absurd hp busy
    case encBusy => exact State.answersWaiting_encoding hp ▸ encoding hp
    case decBusy => exact State.answersWaiting_decoding hp ▸ decoding hp
  obtain ⟨k, t, pos, bound, hrun, hidle, r, hr⟩ := run_answered _ inv h busy le_rfl answered
  exact ⟨k, t, r, pos, bound, hrun, hidle, hr⟩

end Sys2Proof.Machine
end

section
/-! PROOF. Errors and endings: a busy engine's operation ends with its response and holds the requests (60_exceptions.md
R117, R124), a sink failure stops an encode (R109, R111), and what `ILLEGAL_COMMAND` answers (R110). -/

namespace Sys2Proof.Machine

/-! ### The end of an operation in progress -/

/-- From `s` to `t` a busy engine leaves the request port and the reset input alone, and either ends its operation with
a response or delivers none and stays in its phase. -/
structure BusyStep (s t : State) : Prop where
  requests : t.requests = s.requests
  resetIn : t.resetIn = s.resetIn
  outcome : (t.phase = .idle ∧ ∃ r, t.response = some r ∧ t.responses = s.responses ++ [r]) ∨
    (t.phase = s.phase ∧ t.response = none ∧ t.responses = s.responses)

/-- Only a failure and the last byte end an encode. -/
theorem step_encoding_busyStep {s : State} (h : s.resetIn = false) (hp : s.phase = .encBusy) :
    ∃ t, step s = .next t ∧ BusyStep s t := by
  rcases step_encoding_cases h hp with ⟨-, hs⟩ | ⟨f, rest, -, hs⟩ | ⟨rest, -, -, hs⟩ | ⟨rest, -, -, hs⟩
  · exact ⟨_, hs, rfl, rfl, .inr ⟨rfl, rfl, rfl⟩⟩
  · exact ⟨_, hs, rfl, rfl, .inl ⟨rfl, _, rfl, rfl⟩⟩
  · exact ⟨_, hs, rfl, rfl, .inl ⟨rfl, _, rfl, rfl⟩⟩
  · exact ⟨_, hs, rfl, rfl, .inr ⟨rfl, rfl, rfl⟩⟩

/-- Only a failure, a rejected byte and the last byte end a decode. -/
theorem step_decoding_busyStep {s : State} (h : s.resetIn = false) (hp : s.phase = .decBusy) :
    ∃ t, step s = .next t ∧ BusyStep s t := by
  rcases step_decoding_cases h hp with ⟨-, hs⟩ | ⟨f, rest, -, hs⟩ | ⟨b, rest, -, -, hs⟩ |
    ⟨b, rest, -, -, -, hs⟩ | ⟨b, rest, -, -, -, hs⟩
  · exact ⟨_, hs, rfl, rfl, .inr ⟨rfl, rfl, rfl⟩⟩
  · exact ⟨_, hs, rfl, rfl, .inl ⟨rfl, _, rfl, rfl⟩⟩
  · exact ⟨_, hs, rfl, rfl, .inl ⟨rfl, _, rfl, rfl⟩⟩
  · exact ⟨_, hs, rfl, rfl, .inr ⟨rfl, rfl, rfl⟩⟩
  · exact ⟨_, hs, rfl, rfl, .inl ⟨rfl, _, rfl, rfl⟩⟩

/-- What a step of a busy engine does, in either phase. -/
theorem step_busyStep {s : State} (h : s.resetIn = false) (busy : s.phase ≠ .idle) :
    ∃ t, step s = .next t ∧ BusyStep s t := by
  cases hp : s.phase
  case idle => exact absurd hp busy
  case encBusy => exact step_encoding_busyStep h hp
  case decBusy => exact step_decoding_busyStep h hp

/-- Settles O14. -/
theorem anOperationEndsExactlyWithItsResponse : Obligations.AnOperationEndsExactlyWithItsResponse := by
  intro s t h busy ht
  obtain ⟨u, hu, busyStep⟩ := step_busyStep h busy
  obtain rfl := Host.Outcome.next.inj (hu.symm.trans ht)
  exact busyStep.outcome

/-- In `IDLE` with a request on the port, a step is its acceptance. -/
theorem step_eq_acceptRequest {s : State} {r : Request} {rest : List Request} (h : s.resetIn = false)
    (hp : s.phase = .idle) (hq : s.requests = r :: rest) : step s = acceptRequest r s := by
  rw [step_idle_cons h hp hq, acceptRequest_eq, accept_idle hp]

/-- Settles O11: the step leaves the port and the reset input as they are, so the step after the response finds the held
request there. -/
theorem busyEngineHoldsRequests : Obligations.BusyEngineHoldsRequests := by
  intro s h busy
  obtain ⟨t, ht, busyStep⟩ := step_busyStep h busy
  exact ⟨exec_busy busy, t, ht, busyStep.requests, fun r rest idle hq =>
    step_eq_acceptRequest (busyStep.resetIn.trans h) idle (busyStep.requests.trans hq)⟩

/-! ### A sink failure -/

/-- The step of an encode in which the sink fails: the bytes written stay written, and their number is the count. -/
theorem EncodedSoFar.step_fail {s u : State} {w : Width} {v : BitVec w.bits} {m : Nat} {f : HostFailure}
    {later : List SinkAnswer} (h : EncodedSoFar s v m (.fail f :: later) u) :
    ∃ t, step u = .next t ∧ t.phase = .idle ∧ t.sink = s.sink ++ (encodeW w v).take m ∧ t.sinkAnswers = later ∧
      t.source = s.source ∧ t.requests = s.requests.tail ∧
      t.responses = s.responses ++ [⟨.sinkFailure, 0, BitVec.ofNat 4 m, some f⟩] := by
  refine ⟨_, step_encoding_fail h.resetIn h.phase h.sinkAnswers, rfl, h.sink, rfl, h.source, h.requests, ?_⟩
  rw [State.respond_responses, h.idx, h.responses]

/-- Settles O37: the run up to the failing write, and then the step in which it fails. -/
theorem encodeStopsAtASinkFailure : Obligations.EncodeStopsAtASinkFailure := by
  intro s w v r rest m f later hreset hp hq hd hm ha
  obtain ⟨u, hrun, hu⟩ := run_encode hreset hp hq hd m hm ha
  obtain ⟨t, hstep, hphase, hsink, hanswers, hsource, hrequests, hrecord⟩ := hu.step_fail
  refine ⟨t, ?_, hphase, hsink, hanswers, hsource, by simpa [hq] using hrequests, hrecord⟩
  rw [show 2 + m = 1 + m + 1 by omega]
  exact run_snoc hrun hstep

/-! ### `ILLEGAL_COMMAND` -/

/-- The status on the port is that of the answer. -/
theorem State.answeredWith_status_ne {s : State} {r : Response} {st : Status} (h : r.status ≠ st) :
    ∀ x, (s.answeredWith r).response = some x → x.status ≠ st :=
  fun _ hx => Option.some.inj hx ▸ h

section
variable {s : State} (hp : s.phase = .idle)
include hp

/-- What `PLACEW` answers for an index of the width (40_primitives.md R64). -/
theorem exec_placeInstr_legal {w : Width} {j : Nibble} (acc : BitVec w.bits) (b : Byte)
    (legal : j.toNat ≤ w.maxBytes - 1) :
    exec (placeInstr w acc j b) s = .next (s.answeredWith ⟨.ok, toField (place acc j.toNat b), 0, none⟩) := by
  rw [exec_placeInstr hp, if_pos legal]

/-- What `PLACEW` answers for any other index (40_primitives.md R64). -/
theorem exec_placeInstr_illegal {w : Width} {j : Nibble} (acc : BitVec w.bits) (b : Byte)
    (illegal : ¬j.toNat ≤ w.maxBytes - 1) :
    exec (placeInstr w acc j b) s = .next (s.answeredWith ⟨.illegalCommand, 0, 0, none⟩) := by
  rw [exec_placeInstr hp, if_neg illegal]

/-- An index operand out of range is answered `ILLEGAL_COMMAND`; only `PLACE` and `VALID` have one (30_encoding.md
R55). -/
theorem exec_of_not_wellFormed {i : Instr} (hi : i.wellFormed = false) :
    exec i s = .next (s.answeredWith ⟨.illegalCommand, 0, 0, none⟩) := by
  cases i with
  | place32 acc j b =>
    rw [wellFormed_place32, ← Bool.not_eq_true, indexLegal_iff] at hi
    exact exec_placeInstr_illegal hp (w := .w32) acc b hi
  | place64 acc j b =>
    rw [wellFormed_place64, ← Bool.not_eq_true, indexLegal_iff] at hi
    exact exec_placeInstr_illegal hp (w := .w64) acc b hi
  | valid32 k b =>
    rw [wellFormed_valid32, ← Bool.not_eq_true, byteNumberLegal_iff] at hi
    exact exec_validInstr_illegal hp (w := .w32) b hi
  | valid64 k b =>
    rw [wellFormed_valid64, ← Bool.not_eq_true, byteNumberLegal_iff] at hi
    exact exec_validInstr_illegal hp (w := .w64) b hi
  | enc32 | enc64 | dec32 | dec64 | pack32 | pack64 | cont => cases hi

/-- With its operands in range an instruction is not answered `ILLEGAL_COMMAND`: a codec request is not answered in its
accepting step, and the others are answered `OK` or, by `VALID`, `INVALID_ENCODING`. -/
theorem exec_of_wellFormed {i : Instr} (hi : i.wellFormed = true) :
    ∃ t, exec i s = .next t ∧ ∀ x, t.response = some x → x.status ≠ .illegalCommand := by
  cases i with
  | enc32 | enc64 | dec32 | dec64 => exact ⟨_, exec_idle hp _, nofun⟩
  | pack32 v => exact ⟨_, exec_packInstr hp .w32 v, State.answeredWith_status_ne (by simp)⟩
  | pack64 v => exact ⟨_, exec_packInstr hp .w64 v, State.answeredWith_status_ne (by simp)⟩
  | place32 acc j b =>
    rw [wellFormed_place32, indexLegal_iff] at hi
    exact ⟨_, exec_placeInstr_legal hp (w := .w32) acc b hi, State.answeredWith_status_ne (by simp)⟩
  | place64 acc j b =>
    rw [wellFormed_place64, indexLegal_iff] at hi
    exact ⟨_, exec_placeInstr_legal hp (w := .w64) acc b hi, State.answeredWith_status_ne (by simp)⟩
  | valid32 k b =>
    rw [wellFormed_valid32, byteNumberLegal_iff] at hi
    exact ⟨_, exec_validInstr_legal hp (w := .w32) b hi, State.answeredWith_status_ne (by split <;> simp)⟩
  | valid64 k b =>
    rw [wellFormed_valid64, byteNumberLegal_iff] at hi
    exact ⟨_, exec_validInstr_legal hp (w := .w64) b hi, State.answeredWith_status_ne (by split <;> simp)⟩
  | cont b => exact ⟨_, exec_cont hp b, State.answeredWith_status_ne (by simp)⟩

end

/-- Settles O8: a reserved word is always answered so, an assigned one exactly when its operands are out of range. -/
theorem illegalCommandExactlyWhenReservedOrOutOfRange :
    Obligations.IllegalCommandExactlyWhenReservedOrOutOfRange := by
  intro s r rest hreset hp hq illegal
  have answered : illegal → step s = .next (s.answeredWith ⟨.illegalCommand, 0, 0, none⟩) := by
    rintro (reserved | ⟨i, hd, hi⟩)
    · exact reservedCommandIsAnsweredIllegal s r rest hreset hp hq reserved
    · exact (stepRunsTheDecodedInstruction s r rest i hreset hp hq hd).trans (exec_of_not_wellFormed hp hi)
  refine ⟨⟨?_, fun h => ⟨_, _, answered h, rfl, rfl⟩⟩, answered⟩
  rintro ⟨t, x, ht, hx, status⟩
  rcases Nat.lt_or_ge r.cmd.toNat 0x0B with assigned | reserved
  · obtain ⟨i, hd⟩ := (exists_decode_eq_ok_iff r).2 assigned
    refine .inr ⟨i, hd, ?_⟩
    by_contra inRange
    obtain ⟨u, hu, otherwise⟩ := exec_of_wellFormed hp (by simpa using inRange)
    rw [stepRunsTheDecodedInstruction s r rest i hreset hp hq hd, hu] at ht
    obtain rfl := Host.Outcome.next.inj ht
    exact otherwise x hx status
  · exact .inl reserved

/-- Settles O16, code by code. -/
theorem statusCodesAreThoseOfTheTable : Obligations.StatusCodesAreThoseOfTheTable :=
  ⟨rfl, rfl, rfl, rfl, rfl⟩

end Sys2Proof.Machine
end

section
/-! PROOF. Reset and hazards: what the reset input does in any state (70_reset_and_hazards.md R125, R126), the waits for
the host (R127, R132), and the refusal of a system that shares a stream (R129, R130). -/

namespace Sys2Proof.Machine

/-! ### Reset -/

/-- Settles O2: asserting reset leaves a state that applying reset again, as a step does while the input stays asserted,
does not change. -/
theorem resetInputTakesEffectInAnyState : Obligations.ResetInputTakesEffectInAnyState := by
  refine fun s => ⟨?_, step_reset rfl⟩
  rintro u (rfl | rfl) <;> exact ⟨rfl, rfl, rfl, rfl, rfl, rfl, rfl⟩

/-- Settles O3: reset leaves the host's side as it is, so the step after release finds an idle engine with the request
still on its port. -/
theorem resetAbandonsTheOperationAndKeepsTransfers : Obligations.ResetAbandonsTheOperationAndKeepsTransfers :=
  fun _ => ⟨rfl, rfl, rfl, rfl, rfl, rfl, fun _ _ hq => step_eq_acceptRequest rfl rfl hq⟩

/-! ### Waiting for the host -/

/-- Settles O10, wait by wait. -/
theorem engineWaitsForTheHost : Obligations.EngineWaitsForTheHost := by
  rintro s h (⟨hp, hr⟩ | ⟨hp, ha⟩ | ⟨hp, hs⟩)
  · exact step_idle_nil h hp hr
  · exact step_encoding_wait h hp ha
  · exact step_decoding_wait h hp hs

/-! ### Shared streams -/

/-- In a list of connections without repetition, two different instances are connected differently. -/
theorem connection_ne_of_nodup {l : List Instance} {g : Instance → Nat} {i j : Nat} {a b : Instance}
    (nodup : (l.map g).Nodup) (hij : i ≠ j) (hi : l[i]? = some a) (hj : l[j]? = some b) : g a ≠ g b := by
  intro shared
  obtain ⟨hlt, -⟩ := List.getElem?_eq_some_iff.1 hi
  have same : (l.map g)[i]? = (l.map g)[j]? := by simp only [List.getElem?_map, hi, hj, Option.map_some, shared]
  exact hij ((List.getElem?_inj (by simpa using hlt) nodup).1 same)

/-- A system in which two different instances share a source or a sink is not exclusive. -/
theorem System.exclusive_eq_false_of_shared {sys : System} {i j : Nat} {a b : Instance} (hij : i ≠ j)
    (hi : sys.instances[i]? = some a) (hj : sys.instances[j]? = some b)
    (shared : a.sourceId = b.sourceId ∨ a.sinkId = b.sinkId) : sys.exclusive = false := by
  refine decide_eq_false ?_
  rintro ⟨sources, sinks⟩
  rcases shared with source | sink
  · exact connection_ne_of_nodup sources hij hi hj source
  · exact connection_ne_of_nodup sinks hij hi hj sink

/-- Nothing is done at any instance of a system that is not exclusive. -/
theorem System.atInstance_eq_refused {sys : System} (hx : sys.exclusive = false) (k : Nat)
    (op : State → Host.Outcome State Fault Refusal) : sys.atInstance k op = .refused .sharedStream := by
  simp [System.atInstance, hx]

/-- Settles O50: the refusal comes before any instance is looked at. -/
theorem sharedStreamsAreRefused : Obligations.SharedStreamsAreRefused := by
  intro sys i j k a b hij hi hj shared
  have hx := System.exclusive_eq_false_of_shared hij hi hj shared
  exact ⟨System.atInstance_eq_refused hx k step, fun _ => System.atInstance_eq_refused hx k _⟩

end Sys2Proof.Machine
end
